-- ==== Sys2Proof/Config.lean ====
section
/-! DEFINITION. The parameters of the block (R5). All are fixed by the spec but `lat`, which it leaves open. -/

namespace Sys2Proof.Config

/-- `N`: bits in a codeword, indexed 0 to 15 (R5). -/
abbrev codewordBits : Nat := 16

/-- `K`: data bits in a codeword (R5). -/
abbrev dataBits : Nat := 11

/-- `NPAR`: parity slots, four group parities and one overall parity (R5). -/
abbrev paritySlots : Nat := 5

/-- `CP_LIMIT`: the smallest code point the encoder rejects (R5, R80). -/
abbrev codePointLimit : Nat := 2048

/-- `CHRW`: bits of a decoded character (R5, R116). -/
abbrev charBits : Nat := 8

/-- `CPW`: width of the code-point operand of ENC and PACK (R5, R62). -/
abbrev codePointBits : Nat := 21

/-- `CMDW`: width of the command word (R5, R60). -/
abbrev commandBits : Nat := 32

/-- `LENW`: width of the `len` field (R5, R60). -/
abbrev lenBits : Nat := 5

/-- `FLTW`: width of the fault register (R5, R29). -/
abbrev faultBits : Nat := 2

/-- `LAT`: clock cycles from command sample to registers updated. The spec leaves it OPEN and says that no rule depends on
it (R5, R197), so it is a constant with no known value and nothing in the model reads it. (Log 9.) -/
opaque lat : Nat

end Sys2Proof.Config
end

