-- ==== Sys2Proof/Word.lean ====
section
/-! DEFINITION. The word types of the block: what the spec treats as bits, at the widths the spec gives. -/

namespace Sys2Proof

/-- A 16-bit codeword or received word on the bus; bit `i` is `code[i]` (R6, R7). -/
abbrev Word := BitVec 16

/-- A 32-bit command word `cmd[31:0]` (R60). -/
abbrev Cmd := BitVec 32

/-- The 11 data bits of a character as an unsigned integer (R9, R24). -/
abbrev DataBits := BitVec 11

/-- A decoded character's 8-bit code point (R25, R116). -/
abbrev CharCode := BitVec 8

/-- A syndrome: the exclusive-or of array indices 0 to 15 (R26, R110). -/
abbrev Syndrome := BitVec 4

end Sys2Proof
end

