-- ==== Sys2Proof/Syntax.lean ====
section
/-! DEFINITION. The commands of the block (R61), one constructor per row of the opcode table. -/

namespace Sys2Proof

/-- A command with its operands (R60 to R62). `cp` and `len` are the unsigned integers the spec calls them; `w` is a word of
bits. WellFormed says that they fit their fields. -/
inductive Instr where
  /-- `ENC cp`: encode one character (R88). -/
  | enc (cp : Nat)
  /-- `DEC w, len`: decode one chunk of `len` stream bits (R124). -/
  | dec (w : Word) (len : Nat)
  /-- `PACK cp`: place the data bits of a character, no parity (R89). -/
  | pack (cp : Nat)
  /-- `PGEN w`: recompute the five parity slots (R90). -/
  | pgen (w : Word)
  /-- `SYND w`: syndrome and overall parity (R121). -/
  | synd (w : Word)
  /-- `CORR w`: single-bit correction (R122). -/
  | corr (w : Word)
  /-- `UNPK w`: extract the data bits, no correction (R123). -/
  | unpk (w : Word)
  /-- `CLRF`: clear the fault register (R140). -/
  | clrf
  deriving DecidableEq, Repr

/-- The mnemonic of R61, as the opcode table spells it. -/
def Instr.mnemonic : Instr → String
  | .enc _ => "ENC"
  | .dec _ _ => "DEC"
  | .pack _ => "PACK"
  | .pgen _ => "PGEN"
  | .synd _ => "SYND"
  | .corr _ => "CORR"
  | .unpk _ => "UNPK"
  | .clrf => "CLRF"

/-- The pseudo-instruction `DEC w`, which expands to `DEC w, 16` (R71 (a)). -/
def Instr.decChunk (w : Word) : Instr := .dec w 16

end Sys2Proof
end

