-- ==== Sys2Proof/WellFormed.lean ====
section
/-! DEFINITION. Which commands can be presented on the 32-bit command port: the operands fit their fields (R60, R62). -/

namespace Sys2Proof

/-- The code point fits the 21-bit `arg` field (R60, R62 (a)). -/
abbrev codePointFits (cp : Nat) : Prop := cp < 2 ^ Config.codePointBits

/-- The chunk length fits the 5-bit `len` field (R60, R62 (c)). -/
abbrev chunkLengthFits (len : Nat) : Prop := len < 2 ^ Config.lenBits

/-- A command whose operands fit their fields; the 16-bit word operands always do. -/
def Instr.wellFormed : Instr → Bool
  | .enc cp => decide (codePointFits cp)
  | .dec _ len => decide (chunkLengthFits len)
  | .pack cp => decide (codePointFits cp)
  | .pgen _ => true
  | .synd _ => true
  | .corr _ => true
  | .unpk _ => true
  | .clrf => true

/-- The same as a proposition. -/
abbrev Instr.WellFormed (i : Instr) : Prop := i.wellFormed = true

end Sys2Proof
end

