-- ==== Sys2Proof/Decode.lean ====
section
/-! DEFINITION. The command word: its fields, the opcode map, the total decoder with its named rejections, and the encoder. -/

namespace Sys2Proof

/-- The `op` field, bits 31:29 (R60). -/
def Cmd.op (c : Cmd) : BitVec 3 := c.extractLsb' 29 3

/-- The `rsv` field, bits 28:26 (R60). -/
def Cmd.rsv (c : Cmd) : BitVec 3 := c.extractLsb' 26 3

/-- The `len` field, bits 25:21 (R60). -/
def Cmd.len (c : Cmd) : BitVec 5 := c.extractLsb' 21 5

/-- The `arg` field, bits 20:0 (R60). -/
def Cmd.arg (c : Cmd) : BitVec 21 := c.extractLsb' 0 21

/-- The part of `arg` above a word operand, `arg[20:16]` (R60). -/
def Cmd.argHigh (c : Cmd) : BitVec 5 := c.extractLsb' 16 5

/-- The code-point operand `cp = arg[20:0]`, unsigned (R62 (a)). -/
def Cmd.codePoint (c : Cmd) : Nat := c.arg.toNat

/-- The word operand `w = arg[15:0]` (R62 (b)). -/
def Cmd.word (c : Cmd) : Word := c.extractLsb' 0 16

/-- The chunk length `len`, unsigned (R62 (c)). -/
def Cmd.chunkLength (c : Cmd) : Nat := c.len.toNat

/-- A row of the opcode map (R66): a command word `c` selects it when `c & mask = match`, and `read` takes the operands out. -/
structure OpcodeRow where
  mnemonic : String
  mask : Cmd
  pattern : Cmd
  read : Cmd → Instr

/-- The selection test of R66. -/
def OpcodeRow.selects (r : OpcodeRow) (c : Cmd) : Bool := (c &&& r.mask) == r.pattern

/-- The eight rows of R66, in its order. -/
def opcodeTable : List OpcodeRow :=
  [ ⟨"ENC", 0xFFE00000#32, 0x00000000#32, fun c => .enc c.codePoint⟩,
    ⟨"DEC", 0xFC1F0000#32, 0x20000000#32, fun c => .dec c.word c.chunkLength⟩,
    ⟨"PACK", 0xFFE00000#32, 0x40000000#32, fun c => .pack c.codePoint⟩,
    ⟨"PGEN", 0xFFFF0000#32, 0x60000000#32, fun c => .pgen c.word⟩,
    ⟨"SYND", 0xFFFF0000#32, 0x80000000#32, fun c => .synd c.word⟩,
    ⟨"CORR", 0xFFFF0000#32, 0xA0000000#32, fun c => .corr c.word⟩,
    ⟨"UNPK", 0xFFFF0000#32, 0xC0000000#32, fun c => .unpk c.word⟩,
    ⟨"CLRF", 0xFFFFFFFF#32, 0xE0000000#32, fun _ => .clrf⟩ ]

/-- Why a command word is illegal: the four cases of R68, by name. -/
inductive IllegalWord where
  /-- (a) `rsv` is not 0. -/
  | reservedBitsSet
  /-- (b) `len` is not 0 in a command other than DEC. -/
  | lengthFieldUnused
  /-- (c) `arg[20:16]` is not 0 in a command with a word operand. -/
  | wordOperandTooWide
  /-- (d) `arg` is not 0 in CLRF. -/
  | clrfArgumentSet
  deriving DecidableEq, Repr

/-- The reason given for a word that no row selects: the first case of R68 that applies. -/
def illegalReason (c : Cmd) : IllegalWord :=
  if c.rsv ≠ 0 then .reservedBitsSet
  else if c.op ≠ 1 ∧ c.len ≠ 0 then .lengthFieldUnused
  else if c.op ≠ 7 then .wordOperandTooWide
  else .clrfArgumentSet

/-- Decoding, total on the 2^32 command words and independent of every register (R67). -/
def decode (c : Cmd) : Except IllegalWord Instr :=
  match opcodeTable.find? (·.selects c) with
  | some r => .ok (r.read c)
  | none => .error (illegalReason c)

/-- The number of the operation, the `op` column of R61. -/
def Instr.opcode : Instr → BitVec 3
  | .enc _ => 0
  | .dec _ _ => 1
  | .pack _ => 2
  | .pgen _ => 3
  | .synd _ => 4
  | .corr _ => 5
  | .unpk _ => 6
  | .clrf => 7

/-- The `len` field of a command: the chunk length in DEC, 0 in every other command (R60). -/
def Instr.lenField : Instr → BitVec 5
  | .dec _ len => BitVec.ofNat 5 len
  | .enc _ | .pack _ | .pgen _ | .synd _ | .corr _ | .unpk _ | .clrf => 0

/-- The `arg` field of a command: the code point, the zero-extended word, or 0 (R60). -/
def Instr.argField : Instr → BitVec 21
  | .enc cp | .pack cp => BitVec.ofNat 21 cp
  | .dec w _ | .pgen w | .synd w | .corr w | .unpk w => w.setWidth 21
  | .clrf => 0

/-- A command word from its fields, `(op << 29) | (rsv << 26) | (len << 21) | arg` (R60). -/
def commandWord (op rsv : BitVec 3) (len : BitVec 5) (arg : BitVec 21) : Cmd :=
  (op.setWidth 32 <<< 29) ||| (rsv.setWidth 32 <<< 26) ||| (len.setWidth 32 <<< 21) ||| arg.setWidth 32

/-- The command word of a well-formed command (R60, R66); `rsv` is 0 in every command. -/
def encode (i : Instr) : Cmd := commandWord i.opcode 0 i.lenField i.argField

/-- The exact word of CLRF, the only one with an effect while a fault is recorded (R140, R167). -/
def clrfWord : Cmd := 0xE0000000#32

/-- The command word whose low `nbits` bits are those of `w`, every bit above them 0. The block has no byte order: a
command is one 32-bit value on the port (R44, R60). -/
def tableCmd (nbits w : Nat) : Cmd := BitVec.ofNat 32 (w % 2 ^ nbits)

/-- What the decoder reads from an opcode-table word. -/
def decodeTableWord (nbits w : Nat) : Option Instr :=
  match decode (tableCmd nbits w) with
  | .ok i => some i
  | .error _ => none

end Sys2Proof
end

