-- ==== Sys2Proof/Machine/Layout.lean ====
section
/-! DEFINITION. The constants of the codeword layout, as lists of array indices (R11). -/

namespace Sys2Proof.Machine

/-- `DPOS[j]` is the array index that holds data bit `m[j]` (R11, R82). -/
def DPOS : List Nat := [3, 5, 6, 7, 9, 10, 11, 12, 13, 14, 15]

/-- The parity slots: index 0 the overall parity, 1, 2, 4, 8 the group parities (R11). -/
def PPOS : List Nat := [0, 1, 2, 4, 8]

/-- The data indices with bit 0 set (R11, R83). -/
def G1 : List Nat := [3, 5, 7, 9, 11, 13, 15]

/-- The data indices with bit 1 set (R11, R83). -/
def G2 : List Nat := [3, 6, 7, 10, 11, 14, 15]

/-- The data indices with bit 2 set (R11, R83). -/
def G4 : List Nat := [5, 6, 7, 12, 13, 14, 15]

/-- The data indices with bit 3 set (R11, R83). -/
def G8 : List Nat := [9, 10, 11, 12, 13, 14, 15]

/-- All array indices, 0 to 15 (R6). -/
def allSlots : List Nat := List.range 16

end Sys2Proof.Machine
end

