-- ==== Sys2Proof/Machine/Operands.lean ====
section
/-! DEFINITION. Operands and the forms they take: single bits of a word, the checks on a code point and a chunk length, data
bits, and the codeword stream with its string form. -/

namespace Sys2Proof.Machine

/-! ## Bits of a word -/

/-- `w` with the bit at index `i` made `b` (R10, R7). -/
def setBit (w : Word) (i : Nat) (b : Bool) : Word :=
  if b then w ||| (1#16 <<< i) else w &&& ~~~(1#16 <<< i)

/-- The word whose bit `i` is `f i`, `i` from 0 to 15. -/
def wordOfBits (f : Nat → Bool) : Word :=
  allSlots.foldl (fun w i => setBit w i (f i)) 0

/-- The bits of `w` at the listed indices, in order. -/
def bitsAt (w : Word) (indices : List Nat) : List Bool := indices.map w.getLsbD

/-- The exclusive-or of a list of bits, 0 for the empty list: `parity(S)` (R10). -/
def parity (S : List Bool) : Bool := S.foldl xor false

/-- `w` with the bit at index `i` flipped, `w ^ (1 << i)`. -/
def flipBit (w : Word) (i : Nat) : Word := w ^^^ (1#16 <<< i)

/-! ## Code points, data bits, chunk lengths -/

/-- The range check of ENC and PACK: `cp >= 2048` (R80, R161). -/
def codePointTooLarge (cp : Nat) : Bool := decide (Config.codePointLimit ≤ cp)

/-- The 11 data bits of a code point, `cp[10:0]` (R62 (a), R81). -/
def dataOfCodePoint (cp : Nat) : DataBits := BitVec.ofNat 11 cp

/-- `m[j]`, data bit `j` with the most significant first: `m[j] = cp[10-j]` (R9, R81). -/
def dataBit (d : DataBits) (j : Nat) : Bool := d.getLsbD (10 - j)

/-- The length check of DEC: a chunk holds exactly 16 stream bits (R45, R162). -/
def chunkLengthWrong (len : Nat) : Bool := len != Config.codewordBits

/-! ## The stream -/

/-- The 16 stream bits of a codeword, `code[0]` first (R41, R44 (b)). -/
def streamOfWord (w : Word) : List Bool := bitsAt w allSlots

/-- `Chunk(S, k)`: the word with `W[i] = S[16k + i]` (R10, R42). -/
def chunk (S : List Bool) (k : Nat) : Word := wordOfBits fun i => S.getD (16 * k + i) false

/-- The trailing partial chunk of a stream: its bits at the low indices and zeros above (R71 (c), R147). Reading past the end
of the stream gives 0, so it is the chunk that starts where the whole chunks end. -/
def tailChunk (S : List Bool) : Word := chunk S (S.length / 16)

/-- One stream symbol: `'0'` and `'1'`; no other symbol can be presented (R43). -/
def bitOfSymbol (c : Char) : Option Bool :=
  if c = '0' then some false else if c = '1' then some true else none

/-- The symbol of one bit (R43). -/
def symbolOfBit (b : Bool) : Char := if b then '1' else '0'

/-- A stream from its string of symbols, if every symbol is one (R43). -/
def streamOfSymbols (cs : List Char) : Option (List Bool) := cs.mapM bitOfSymbol

/-- The string form of a word: sixteen symbols, `code[0]` leftmost (R8 (a)). -/
def stringForm (w : Word) : List Char := (streamOfWord w).map symbolOfBit

/-- The index form of a word: the indices `i` with `code[i] = 1`, ascending (R8 (b)). -/
def indexForm (w : Word) : List Nat := allSlots.filter fun i => w.getLsbD i

/-- The word of a string form, if it is one: sixteen symbols (R8 (a), R70). -/
def wordOfStringForm (cs : List Char) : Option Word :=
  match streamOfSymbols cs with
  | some S => if S.length = 16 then some (chunk S 0) else none
  | none => none

end Sys2Proof.Machine
end

