-- ==== Sys2Proof/Machine/State.lean ====
section
/-! DEFINITION. The state: the seven registers of the block, the port samples still to come, and whether the block has been
reset; the reasons a step can stop; the state after reset and the states at power-on. -/

namespace Sys2Proof.Machine

/-- The contents of `FLT`, the fault register (R29). All four values of the two bits are legal and named. (Log 7.) -/
inductive FaultCause where
  /-- 0 `NONE`: no fault recorded. -/
  | none
  /-- 1 `CPTL`: ENC or PACK was given a code point of 2048 or more. -/
  | cptl
  /-- 2 `MALF`: DEC was given a chunk whose bit count is not 16. -/
  | malf
  /-- 3 `ILLC`: a command word matched no row of the opcode table. -/
  | illc
  deriving DecidableEq, Repr

/-- The seven registers of the block, 43 bits in all, and no other storage of the block (R22). -/
structure Regs where
  /-- `RES`, 16 bits: last word result (R23). -/
  res : Word
  /-- `DAT`, 11 bits: last extracted data bits, `DAT[10-j] = m[j]` (R24). -/
  dat : DataBits
  /-- `CHR`, 8 bits: last decoded character (R25). -/
  chr : CharCode
  /-- `SYN`, 4 bits: last syndrome, before correction (R26). -/
  syn : Syndrome
  /-- `PAR`, 1 bit: last overall parity, before correction (R27). -/
  par : Bool
  /-- `COR`, 1 bit: whether the last CORR or DEC flipped a bit (R28). -/
  cor : Bool
  /-- `FLT`, 2 bits: the recorded fault (R29). -/
  flt : FaultCause
  deriving DecidableEq, Repr

/-- The input ports at one rising edge of `clk` (R30, R190). -/
structure Edge where
  rst : Bool
  cmdValid : Bool
  cmd : Cmd
  deriving DecidableEq, Repr

/-- The machine. `regs` is the whole state of the block; the other two fields are the model's own. -/
structure State where
  /-- The registers of the block. -/
  regs : Regs
  /-- What the environment drives at the coming rising edges, the next one first; past the end it drives idle. (Log 1.) -/
  inbox : List Edge
  /-- Whether an edge with `rst = 1` has occurred since power-on (R34, R192). (Log 2.) -/
  resetSeen : Bool
  deriving DecidableEq, Repr

/-- Why a run stops. The block's own faults CPTL, MALF and ILLC are not here: they are next states, recorded in `FLT`
(R166). (Log 3.) -/
inductive Fault where
  /-- Raised by the sampling of an edge that presents a command to a block that has never been reset: its effect is
  unspecified, and R34 asks a model to refuse the run. Safe: the model stops where the hardware does something unknown.
  (Log 2.) -/
  | commandBeforeReset
  deriving DecidableEq, Repr

/-- Why a command has no meaning. -/
inductive Refusal where
  /-- Raised by an arm of `exec` whose command has no meaning yet; no arm is in that case. Safe: the model stops. -/
  | notModelled (mnemonic : String)
  deriving DecidableEq, Repr

/-- The reset values of the seven registers (R33). -/
def Regs.reset : Regs :=
  { res := 0, dat := 0, chr := 0, syn := 0, par := false, cor := false, flt := .none }

/-- The machine right after the reset edge, with nothing presented yet on the ports (R33, R192). -/
def State.reset : State :=
  { regs := Regs.reset, inbox := [], resetSeen := true }

/-- The machine at power-on, before the first reset: the registers hold `anything`, which R34 leaves unspecified. (Log 2.) -/
def State.powerOn (anything : Regs) : State :=
  { regs := anything, inbox := [], resetSeen := false }

end Sys2Proof.Machine
end

