-- ==== Sys2Proof/Machine/Flags.lean ====
section
/-! DEFINITION. The values of the status registers: the syndrome, the overall parity, the correction flag, the number of a
fault cause; and the output ports. -/

namespace Sys2Proof.Machine

/-- The syndrome of a word: the exclusive-or of the indices of its bits that are 1, 0 when there is none (R110). -/
def syndrome (w : Word) : Syndrome :=
  (indexForm w).foldl (fun s i => s ^^^ BitVec.ofNat 4 i) 0

/-- The overall parity of a word: the sum of all sixteen bits modulo 2 (R111). -/
def overallParity (w : Word) : Bool := parity (bitsAt w allSlots)

/-- Whether a bit is flipped: `(s != 0) or (p != 0)` (R112). It is the value `COR` takes (R28). -/
def correctionNeeded (s : Syndrome) (p : Bool) : Bool := s != 0 || p

/-- The number of a fault cause, the two bits of `FLT` (R29). -/
def FaultCause.code : FaultCause → BitVec 2
  | .none => 0
  | .cptl => 1
  | .malf => 2
  | .illc => 3

/-- `fault = (FLT != 0)` (R30). -/
def Regs.fault (r : Regs) : Bool := r.flt != .none

/-- The output ports (R30). -/
structure Outputs where
  res : Word
  dat : DataBits
  chr : CharCode
  syn : Syndrome
  par : Bool
  cor : Bool
  flt : BitVec 2
  fault : Bool
  deriving DecidableEq, Repr

/-- Each output port shows the register of the same name, and `fault` shows `FLT != 0` (R30). Reading has no side effect
(R47). -/
def State.outputs (s : State) : Outputs :=
  { res := s.regs.res, dat := s.regs.dat, chr := s.regs.chr, syn := s.regs.syn, par := s.regs.par, cor := s.regs.cor,
    flt := s.regs.flt.code, fault := s.regs.fault }

/-- A valid codeword has syndrome 0 and overall parity 0 (R13, R87 (b)). -/
def validCodeword (w : Word) : Bool := syndrome w == 0 && !overallParity w

end Sys2Proof.Machine
end

