-- ==== Sys2Proof/Machine/Ops.lean ====
section
/-! DEFINITION. The shared operations: the units of the codec as functions of a word, the register writes, taking a fault and
returning from one, and the refusal of commands while a fault is recorded. -/

namespace Sys2Proof.Machine

/-! ## The encoder's units -/

/-- Placement: `code[DPOS[j]] = m[j]`, the five parity slots 0 (R82, R89). -/
def placeData (d : DataBits) : Word :=
  (List.range 11).foldl (fun w j => setBit w (DPOS.getD j 0) (dataBit d j)) 0

/-- The four group parities, each the exclusive-or of its group's data slots (R83). -/
def withGroupParities (w : Word) : Word :=
  setBit (setBit (setBit (setBit w 1 (parity (bitsAt w G1))) 2 (parity (bitsAt w G2))) 4 (parity (bitsAt w G4)))
    8 (parity (bitsAt w G8))

/-- The overall parity at index 0: the exclusive-or of the other fifteen bits (R84). -/
def withOverallParity (w : Word) : Word := setBit w 0 (parity (bitsAt w (List.range' 1 15)))

/-- The parity generator: the data slots kept, the group parities recomputed, then the overall parity over them (R90). -/
def generateParity (w : Word) : Word := withOverallParity (withGroupParities w)

/-- The codeword of eleven data bits: placement, then the parity generator (R85). -/
def encodeData (d : DataBits) : Word := generateParity (placeData d)

/-- `encode_word(cp)`: the codeword of a code point, which has no value for `cp >= 2048` (R80, R85). -/
def encodeWord (cp : Nat) : Option Word :=
  if codePointTooLarge cp then none else some (encodeData (dataOfCodePoint cp))

/-! ## The decoder's units -/

/-- The correction mask: one bit at the syndrome index when a flip is needed, else 0 (R113). -/
def correctionMask (w : Word) : Word :=
  if correctionNeeded (syndrome w) (overallParity w) then 1#16 <<< (syndrome w).toNat else 0

/-- The corrected word `w ^ mask(w)` (R114). -/
def correctWord (w : Word) : Word := w ^^^ correctionMask w

/-- The eleven data bits of a word as an unsigned integer, the bit at `DPOS[0]` most significant (R115). -/
def extractData (y : Word) : DataBits :=
  DPOS.foldl (fun d i => (d <<< 1) ||| (BitVec.ofBool (y.getLsbD i)).setWidth 11) 0

/-- The character of eleven data bits: the low 8 bits (R116). -/
def charOfData (d : DataBits) : CharCode := d.setWidth 8

/-- `decode_word(w)`: the character of the corrected word (R117). -/
def decodeWord (w : Word) : CharCode := charOfData (extractData (correctWord w))

/-! ## Register writes -/

/-- `RES <- w` (R23). -/
def writeRes (w : Word) (s : State) : State := { s with regs := { s.regs with res := w } }

/-- `SYN` and `PAR` of the operand word, before correction (R26, R27). -/
def writeSynPar (w : Word) (s : State) : State :=
  { s with regs := { s.regs with syn := syndrome w, par := overallParity w } }

/-- `COR` of the operand word (R28). -/
def writeCor (w : Word) (s : State) : State :=
  { s with regs := { s.regs with cor := correctionNeeded (syndrome w) (overallParity w) } }

/-- `DAT` and `CHR`, always written together (R24, R25). -/
def writeDatChr (d : DataBits) (s : State) : State :=
  { s with regs := { s.regs with dat := d, chr := charOfData d } }

/-! ## Faults -/

/-- What a fault does: `FLT <- c`, and nothing else (R166). -/
def raiseFault (c : FaultCause) (s : State) : State := { s with regs := { s.regs with flt := c } }

/-- The return from a fault: `FLT <- 0`, nothing restored (R169). -/
def clearFault (s : State) : State := { s with regs := { s.regs with flt := .none } }

/-- While a fault is recorded a command other than CLRF is refused: a step that leaves the state unchanged (R167). Otherwise
`effect` takes place. -/
def unlessFaulted (effect : State → State) (s : State) : Host.Outcome State Fault Refusal :=
  if s.regs.flt = .none then .next (effect s) else .next s

end Sys2Proof.Machine
end

