-- ==== Sys2Proof/Machine/Decoder.lean ====
section
/-! DEFINITION. The meanings of the decoder's commands: SYND, CORR, UNPK, DEC. -/

namespace Sys2Proof.Machine

/-- `SYND w` (R121): `SYN` and `PAR` of the word; `COR` is not written. -/
def execSynd (w : Word) (s : State) : Host.Outcome State Fault Refusal :=
  unlessFaulted (writeSynPar w) s

/-- `CORR w` (R122): `SYN`, `PAR`, `COR` of the operand before correction, `RES` the corrected word. -/
def execCorr (w : Word) (s : State) : Host.Outcome State Fault Refusal :=
  unlessFaulted (fun s => writeRes (correctWord w) (writeCor w (writeSynPar w s))) s

/-- `UNPK w` (R123): `DAT` and `CHR` of the operand, without correction. -/
def execUnpk (w : Word) (s : State) : Host.Outcome State Fault Refusal :=
  unlessFaulted (writeDatChr (extractData w)) s

/-- `DEC w, len` (R124): MALF unless `len` is 16, before the word is looked at; else all six data registers, `DAT` and `CHR`
from the corrected word. -/
def execDec (w : Word) (len : Nat) (s : State) : Host.Outcome State Fault Refusal :=
  unlessFaulted (fun s =>
    if chunkLengthWrong len then raiseFault .malf s
    else writeDatChr (extractData (correctWord w)) (writeRes (correctWord w) (writeCor w (writeSynPar w s)))) s

end Sys2Proof.Machine
end

