-- ==== Sys2Proof/Machine/Encoder.lean ====
section
/-! DEFINITION. The meanings of the encoder's commands: ENC, PACK, PGEN. -/

namespace Sys2Proof.Machine

/-- `ENC cp` (R88): CPTL for 2048 and more, else `RES` is the codeword. -/
def execEnc (cp : Nat) (s : State) : Host.Outcome State Fault Refusal :=
  unlessFaulted (fun s =>
    if codePointTooLarge cp then raiseFault .cptl s else writeRes (encodeData (dataOfCodePoint cp)) s) s

/-- `PACK cp` (R89): CPTL for 2048 and more, else `RES` is the placed data bits with the parity slots 0. -/
def execPack (cp : Nat) (s : State) : Host.Outcome State Fault Refusal :=
  unlessFaulted (fun s =>
    if codePointTooLarge cp then raiseFault .cptl s else writeRes (placeData (dataOfCodePoint cp)) s) s

/-- `PGEN w` (R90): `RES` is `w` with its five parity slots recomputed. -/
def execPgen (w : Word) (s : State) : Host.Outcome State Fault Refusal :=
  unlessFaulted (writeRes (generateParity w)) s

end Sys2Proof.Machine
end

