-- ==== Sys2Proof/Machine/System.lean ====
section
/-! DEFINITION. The meaning of the system command CLRF. -/

namespace Sys2Proof.Machine

/-- `CLRF` (R140): `FLT <- 0`. It is never refused and never faults. -/
def execClrf (s : State) : Host.Outcome State Fault Refusal := .next (clearFault s)

end Sys2Proof.Machine
end

