-- ==== Sys2Proof/Machine/Dispatch.lean ====
section
/-! DEFINITION. What each command does: one arm per constructor of Instr, each one call of that command's meaning. -/

namespace Sys2Proof.Machine

def exec (i : Instr) (s : State) : Host.Outcome State Fault Refusal :=
  match i with
  | .enc cp => Sys2Proof.Machine.execEnc cp s
  | .dec w len => Sys2Proof.Machine.execDec w len s
  | .pack cp => Sys2Proof.Machine.execPack cp s
  | .pgen w => Sys2Proof.Machine.execPgen w s
  | .synd w => Sys2Proof.Machine.execSynd w s
  | .corr w => Sys2Proof.Machine.execCorr w s
  | .unpk w => Sys2Proof.Machine.execUnpk w s
  | .clrf => Sys2Proof.Machine.execClrf s

end Sys2Proof.Machine
end

