-- ==== Sys2Proof/Machine/Port.lean ====
section
/-! DEFINITION. The command port: what the block does at one rising edge of the clock (R195). -/

namespace Sys2Proof.Machine

/-- A reset edge (R33, R190): every register takes its reset value. -/
def resetEdge (s : State) : State := { s with regs := Regs.reset, resetSeen := true }

/-- A command presented to a block that has been reset: refused while a fault is recorded unless it is the exact word of
CLRF, else decoded, and either executed or recorded as illegal (R167, R168, R195). -/
def runCommand (c : Cmd) (s : State) : Host.Outcome State Fault Refusal :=
  if s.regs.flt ≠ .none ∧ c ≠ clrfWord then .next s
  else
    match decode c with
    | .error _ => .next (raiseFault .illc s)
    | .ok i => exec i s

/-- What happens at one rising edge, in the order of R195: reset wins, then an idle edge changes nothing, then the command.
A command before the first reset stops the run (R34). -/
def sampleEdge (e : Edge) (s : State) : Host.Outcome State Fault Refusal :=
  if e.rst then .next (resetEdge s)
  else if e.cmdValid = false then .next s
  else if s.resetSeen = false then .fault .commandBeforeReset
  else runCommand e.cmd s

/-- What the environment drives at the next edge; idle when it has nothing more to present. (Log 1.) -/
def nextEdge (s : State) : Edge := s.inbox.headD { rst := false, cmdValid := false, cmd := 0 }

/-- The state with that edge taken off the list. -/
def dropEdge (s : State) : State := { s with inbox := s.inbox.tail }

/-- The edge at which the host presents the command word `c` (R151). -/
def Edge.command (c : Cmd) : Edge := { rst := false, cmdValid := true, cmd := c }

/-- A reset edge; the command ports are not looked at (R191). -/
def Edge.reset : Edge := { rst := true, cmdValid := false, cmd := 0 }

/-- An edge with neither a reset nor a command (R195). -/
def Edge.idle : Edge := { rst := false, cmdValid := false, cmd := 0 }

/-- The state in which the environment drives `e` at the next edge, before what it drives already. -/
def presentEdge (e : Edge) (s : State) : State := { s with inbox := e :: s.inbox }

/-- A host action: the list elements of R195. -/
inductive Action where
  | reset
  | command (c : Cmd)
  deriving DecidableEq, Repr

/-- The edge of a host action (R195). -/
def Action.edge : Action → Edge
  | .reset => Edge.reset
  | .command c => Edge.command c

/-- A run over a list of edges (R195, R196): each edge in turn, stopping only where a step stops. -/
def runEdges : List Edge → State → Host.Outcome State Fault Refusal
  | [], s => .next s
  | e :: es, s =>
    match sampleEdge e s with
    | .next s' => runEdges es s'
    | .fault f => .fault f
    | .refused r => .refused r

/-- A run over a list of host actions, idle edges skipped (R195, R196). -/
def runActions (actions : List Action) (s : State) : Host.Outcome State Fault Refusal :=
  runEdges (actions.map Action.edge) s

end Sys2Proof.Machine
end

