-- ==== Sys2Proof/Machine/Step.lean ====
section
/-! DEFINITION. One step of the machine: one rising edge of the clock. -/

namespace Sys2Proof.Machine

/-- One rising edge of `clk` (R195): the next port sample is taken off the list and acted on. -/
def step (s : State) : Host.Outcome State Fault Refusal := sampleEdge (nextEdge s) (dropEdge s)

/-- `s` with an opcode-table word presented on the command port at the next edge, the block having been reset. The block
fetches nothing: a command comes from the host (R53). (Log 4.) -/
def State.withFetchWord (s : State) (nbits w : Nat) : State :=
  { presentEdge (Edge.command (tableCmd nbits w)) s with resetSeen := true }

end Sys2Proof.Machine
end

