-- ==== Sys2Proof/Machine/Assembly.lean ====
section
/-! DEFINITION. The written form of a command, both ways: writing one and reading one (R70, R71 (a)). -/

namespace Sys2Proof.Machine

/-! ## Writing -/

/-- The symbol of a digit below sixteen; the spec writes its words with capitals (R8 (c)). -/
def digitSymbol (d : Nat) : Char := (Nat.digitChar d).toUpper

/-- A number in hexadecimal, `0x` first, as R70 writes it, at `digits` digits. -/
def hexText (digits n : Nat) : String :=
  "0x" ++ String.ofList ((List.range digits).reverse.map fun k => digitSymbol (n / 16 ^ k % 16))

/-- A command as the spec writes it: the mnemonic, then the operands separated by commas (R70). Code points and lengths are
decimal, words are hexadecimal. (Log 10.) -/
def commandText (i : Instr) : String :=
  match i with
  | .enc cp => i.mnemonic ++ " " ++ toString cp
  | .pack cp => i.mnemonic ++ " " ++ toString cp
  | .dec w len => i.mnemonic ++ " " ++ hexText 4 w.toNat ++ ", " ++ toString len
  | .pgen w => i.mnemonic ++ " " ++ hexText 4 w.toNat
  | .synd w => i.mnemonic ++ " " ++ hexText 4 w.toNat
  | .corr w => i.mnemonic ++ " " ++ hexText 4 w.toNat
  | .unpk w => i.mnemonic ++ " " ++ hexText 4 w.toNat
  | .clrf => i.mnemonic

/-! ## Reading -/

/-- The digit below the base that a symbol stands for: the one that is written so, in capitals or not (log 10). -/
def digitOfSymbol (base : Nat) (c : Char) : Option Nat := (List.range base).find? fun d => digitSymbol d == c.toUpper

/-- Digits in a base, most significant first, after the number read so far. -/
def readDigits (base : Nat) : List Char → Nat → Option Nat
  | [], n => some n
  | c :: cs, n => (digitOfSymbol base c).bind fun d => readDigits base cs (base * n + d)

/-- The code point of a quoted character. DESIGN CHOICE (log 17): the number Lean gives the character, its Unicode scalar value;
the source names no character set (91_not_in_source.md N15), and `'A' = 65` is the one mapping it gives. -/
def codePointOfChar (c : Char) : Nat := c.toNat

/-- A number: decimal, hexadecimal after `0x` with at least one digit, or a character in single quotes (R70). DESIGN CHOICE
(log 18): a quoted character may stand for any numeric operand, a word or a length as well as a code point. -/
def readNumber : List Char → Option Nat
  | ['\'', c, '\''] => some (codePointOfChar c)
  | '0' :: 'x' :: c :: cs => readDigits 16 (c :: cs) 0
  | c :: cs => readDigits 10 (c :: cs) 0
  | [] => none

/-- A code-point operand: a number that fits the field (R62 (a), R70). -/
def readCodePoint (cs : List Char) : Option Nat := (readNumber cs).filter fun n => decide (codePointFits n)

/-- A word operand: the string form in double quotes, or a number of sixteen bits (R70, R8 (a)). That the number may be a quoted
character is log 18. -/
def readWord (cs : List Char) : Option Word :=
  match cs with
  | '"' :: rest => if rest.getLast? = some '"' then wordOfStringForm rest.dropLast else none
  | _ => ((readNumber cs).filter fun n => decide (n < 2 ^ 16)).map (BitVec.ofNat 16)

/-- A chunk length: a number that fits its field (R62 (c), R70). That it may be a quoted character is log 18. -/
def readLength (cs : List Char) : Option Nat := (readNumber cs).filter fun n => decide (chunkLengthFits n)

/-- The text up to the comma that ends the first operand; a comma in single quotes is not it. -/
def firstOperand (cs : List Char) : List Char :=
  match cs with
  | '\'' :: c :: rest => '\'' :: c :: rest.takeWhile (· != ',')
  | _ => cs.takeWhile (· != ',')

/-- The two operands of DEC: a word, a comma, a length; the word alone means a length of 16 (R70, R71 (a)). Spaces after the comma
are skipped (log 10). -/
def readChunk (cs : List Char) : Option Instr :=
  match cs.drop (firstOperand cs).length with
  | [] => (readWord cs).map Instr.decChunk
  | _ :: len =>
    (readWord (firstOperand cs)).bind fun w => (readLength (len.dropWhile (· == ' '))).map (Instr.dec w)

/-- One command from its written form; none when it is not one (R70). The lines ENCS and DECS are host sequences, not commands
(R71 (b), (c)), and have no form here. (Log 10.) -/
def readCommand (cs : List Char) : Option Instr :=
  match cs with
  | 'E' :: 'N' :: 'C' :: ' ' :: rest => (readCodePoint rest).map Instr.enc
  | 'P' :: 'A' :: 'C' :: 'K' :: ' ' :: rest => (readCodePoint rest).map Instr.pack
  | 'P' :: 'G' :: 'E' :: 'N' :: ' ' :: rest => (readWord rest).map Instr.pgen
  | 'S' :: 'Y' :: 'N' :: 'D' :: ' ' :: rest => (readWord rest).map Instr.synd
  | 'C' :: 'O' :: 'R' :: 'R' :: ' ' :: rest => (readWord rest).map Instr.corr
  | 'U' :: 'N' :: 'P' :: 'K' :: ' ' :: rest => (readWord rest).map Instr.unpk
  | 'D' :: 'E' :: 'C' :: ' ' :: rest => readChunk rest
  | ['C', 'L', 'R', 'F'] => some .clrf
  | _ => none

/-- A program: one command a line, top to bottom, with no labels and no directives (R70). -/
def readProgram (lines : List (List Char)) : Option (List Instr) := lines.mapM readCommand

end Sys2Proof.Machine
end

