-- ==== Sys2Proof/Machine/Channel.lean ====
section
/-! DEFINITION. The noise channel, the environment between ENCS and DECS (R100 to R107). It is no part of the block and has no
command. -/

namespace Sys2Proof.Machine

/-- Whether an event with centre `i` and radius `r` covers stream index `n` (R102). Truncated subtraction is the clipping at
index 0; an index past the end of a stream has no bit to flip. -/
def eventCovers (i r n : Nat) : Bool := decide (i - r ≤ n ∧ n ≤ i + r)

/-- One noise event: every covered bit is flipped once (R102). -/
def noiseEvent (i r : Nat) (S : List Bool) : List Bool :=
  S.mapIdx fun n b => xor b (eventCovers i r n)

/-- `inject_noise(bits, event_count, burst_radius)`: the centres `draws` are the generator's free choices, `event_count` is
their number, and the default radius is 0 (R101 to R104). A draw outside `[0, length)` is no draw of the generator, and the
result then has no value; in particular an event on an empty stream has none. (Log 8.) -/
def injectNoise (bits : List Bool) (draws : List Nat) (burstRadius : Nat := 0) : Option (List Bool) :=
  match draws with
  | [] => some bits
  | i :: rest => if i < bits.length then injectNoise (noiseEvent i burstRadius bits) rest burstRadius else none

/-- The stream with the bits of the error mask `E` flipped, `S ^ E` (R107). -/
def xorStream (S E : List Bool) : List Bool := List.zipWith xor S E

/-- The net error mask of several events: bit `n` is 1 when an odd number of them covered `n` (R103). -/
def netMask (length : Nat) (draws : List Nat) (burstRadius : Nat) : List Bool :=
  (List.range length).map fun n => decide ((draws.countP fun i => eventCovers i burstRadius n) % 2 = 1)

end Sys2Proof.Machine
end

