-- ==== Sys2Proof/Machine/Stream.lean ====
section
/-! DEFINITION. The stream-level contracts of the document, `encode(text)` and `decode(stream)`, as functions (R85, R86, R117,
R45), and the host's batch sequences ENCS and DECS that run them on the block, one command at a time (R146 to R149). -/

namespace Sys2Proof.Machine

/-- The errors of a batch, under the document's names (R29, R160). -/
inductive BatchError where
  /-- `CodePointTooLarge` (R161). -/
  | codePointTooLarge
  /-- `MalformedStreamError` (R162). -/
  | malformedStream
  /-- An illegal command word, which neither batch ever issues (R164). -/
  | illegalCommand
  deriving DecidableEq, Repr

/-- The result of a batch: the complete output or the error, never a prefix (R148). -/
inductive BatchResult (α : Type) where
  | complete (output : α)
  | failed (error : BatchError)
  deriving DecidableEq, Repr

/-- The error that `FLT` names (R29, R148 (c)). -/
def BatchError.ofCause : FaultCause → Option BatchError
  | .none => none
  | .cptl => some .codePointTooLarge
  | .malf => some .malformedStream
  | .illc => some .illegalCommand

/-! ## The contracts as functions -/

/-- The stream bits of the codewords of a text, if every character has one (R41, R85, R86). -/
def encodedBits : List Nat → Option (List Bool)
  | [] => some []
  | c :: cs =>
    match encodeWord c, encodedBits cs with
    | some w, some rest => some (streamOfWord w ++ rest)
    | _, _ => none

/-- `encode(text)`: the concatenation of the codewords, or the error when some code point is 2048 or more (R86, R146). -/
def encodeText (text : List Nat) : BatchResult (List Bool) :=
  match encodedBits text with
  | some bits => .complete bits
  | none => .failed .codePointTooLarge

/-- `decode(stream)`: one character per chunk, or the error when the length is not a multiple of 16 (R45, R117, R147). -/
def decodeStream (S : List Bool) : BatchResult (List CharCode) :=
  if S.length % 16 = 0 then .complete ((List.range (S.length / 16)).map fun k => decodeWord (chunk S k))
  else .failed .malformedStream

/-! ## The host's sequences

R146 and R147 define ENCS and DECS only from `FLT = 0`. DESIGN CHOICE (log 19): the functions below are total, and on a block with
a fault recorded the host runs the same sequence: its first command is refused, and the result is the error that the old cause in
`FLT` names; when it presents no command, the result is what it would be with no fault recorded. -/

/-- The host presents one command and the block takes one step (R151). -/
def issue (i : Instr) (s : State) : Host.Outcome State Fault Refusal :=
  step (presentEdge (Edge.command (encode i)) s)

/-- How a batch leaves the block, and what it returns to the caller. -/
structure Batch (α : Type) where
  block : State
  result : BatchResult α
  deriving DecidableEq, Repr

/-- ENCS from a point in the text on: `out` is the stream so far (R146). A character that does not fit the 21-bit operand
cannot be presented, and the host reports it itself. On a fault the stream is discarded (R148).
On a block that has a fault recorded already, the result is the error of that cause (log 19). -/
def encsFrom : List Nat → List Bool → State → Host.Outcome (Batch (List Bool)) Fault Refusal
  | [], out, s => .next { block := s, result := .complete out }
  | c :: cs, out, s =>
    if codePointFits c then
      match issue (.enc c) s with
      | .next s' =>
        match BatchError.ofCause s'.regs.flt with
        | some e => .next { block := s', result := .failed e }
        | none => encsFrom cs (out ++ streamOfWord s'.regs.res) s'
      | .fault f => .fault f
      | .refused r => .refused r
    else .next { block := s, result := .failed .codePointTooLarge }

/-- `ENCS text` (R146); R146 starts it from `FLT = 0`, and what it gives otherwise is log 19. -/
def encs (text : List Nat) (s : State) : Host.Outcome (Batch (List Bool)) Fault Refusal := encsFrom text [] s

/-- What DECS returns: the text, and the host's optional report of the chunks that were corrected, each with the index that
was flipped (R120, R147). (Log 6.) -/
structure Decoded where
  text : List CharCode
  corrected : List (Nat × Syndrome)
  deriving DecidableEq, Repr

/-- `out` with the character and the report of chunk `k` appended, read from the registers after its DEC (R147). -/
def Decoded.append (out : Decoded) (k : Nat) (r : Regs) : Decoded :=
  { text := out.text ++ [r.chr], corrected := out.corrected ++ (if r.cor then [(k, r.syn)] else []) }

/-- The end of DECS: the trailing partial chunk, when there is one, is presented with its length and the result is the error
(R147). On a block that has a fault recorded already, the error is that of the recorded cause (log 19). -/
def decsTail (S : List Bool) (out : Decoded) (s : State) : Host.Outcome (Batch Decoded) Fault Refusal :=
  if S.length % 16 = 0 then .next { block := s, result := .complete out }
  else
    match issue (.dec (tailChunk S) (S.length % 16)) s with
    | .next s' => .next { block := s', result := .failed ((BatchError.ofCause s'.regs.flt).getD .malformedStream) }
    | .fault f => .fault f
    | .refused r => .refused r

/-- DECS over the listed chunks, then the tail (R147). On a fault the text is discarded (R148). On a block that has a
fault recorded already, the result is the error of that cause (log 19). -/
def decsFrom (S : List Bool) : List Nat → Decoded → State → Host.Outcome (Batch Decoded) Fault Refusal
  | [], out, s => decsTail S out s
  | k :: ks, out, s =>
    match issue (.decChunk (chunk S k)) s with
    | .next s' =>
      match BatchError.ofCause s'.regs.flt with
      | some e => .next { block := s', result := .failed e }
      | none => decsFrom S ks (out.append k s'.regs) s'
    | .fault f => .fault f
    | .refused r => .refused r

/-- `DECS S` (R147); R147 starts it from `FLT = 0`, and what it gives otherwise is log 19. -/
def decs (S : List Bool) (s : State) : Host.Outcome (Batch Decoded) Fault Refusal :=
  decsFrom S (List.range (S.length / 16)) { text := [], corrected := [] } s

/-- `DECS S` by a host that tests the length first and presents the partial chunk before any other (R147). -/
def decsTailFirst (S : List Bool) (s : State) : Host.Outcome (Batch Decoded) Fault Refusal :=
  if S.length % 16 = 0 then decs S s else decsTail S { text := [], corrected := [] } s

/-- `DECS S` by a host that tests the length first and reports the error itself (R45, R147). -/
def decsUnpresented (S : List Bool) (s : State) : Host.Outcome (Batch Decoded) Fault Refusal :=
  if S.length % 16 = 0 then decs S s else .next { block := s, result := .failed .malformedStream }

/-- After a fault the host issues CLRF before another batch (R148 (d)). -/
def acknowledgeFault (s : State) : Host.Outcome State Fault Refusal := issue .clrf s

end Sys2Proof.Machine
end

