-- ==== Sys2Proof/Safety.lean ====
section
/-! DEFINITION. What a safe run is, in the terms the statements use. -/

namespace Sys2Proof.Machine

/-- The block accepts commands: it has been reset and no fault is recorded (R33, R167, R169). -/
abbrev State.Ready (s : State) : Prop := s.resetSeen = true ∧ s.regs.flt = .none

/-- The command just completed: `fault = 0` after it, so the registers it writes are fresh (R194). -/
abbrev State.ResultsFresh (s : State) : Prop := s.regs.fault = false

/-- A batch has ended well when its last command has completed and `FLT = 0`, and in error when `FLT != 0` (R196). -/
abbrev State.BatchEndedWell (s : State) : Prop := s.regs.flt = .none

/-- The invariant of the machine: the block has been reset (R34), and `CHR` equals `DAT[7:0]` (R25). -/
abbrev State.Inv (s : State) : Prop := s.resetSeen = true ∧ s.regs.chr = s.regs.dat.extractLsb' 0 8

/-- The number of bits set in a word. -/
def weight (w : Word) : Nat := (indexForm w).length

end Sys2Proof.Machine
end

