-- ==== Sys2Proof/Certificates/Slice0/Obligations.lean ====
section
/-! DEFINITION. The statements for the provers, from the numbered rules of the spec, and the words they are written in. -/

open Sys2Proof Sys2Proof.Machine

namespace Sys2Proof.Spec

/-- The host presents the command word `c`, and the block takes one step. -/
def present (c : Cmd) (s : State) : Host.Outcome State Fault Refusal := step (presentEdge (Edge.command c) s)

/-- `s` with other registers: the inputs still to come and the reset history are untouched. -/
def withRegs (s : State) (r : Regs) : State := { s with regs := r }

/-- The word carries the eleven data bits of `cp` at the data slots, the most significant at index 3 (R82, R89). -/
def CarriesData (cp : Nat) (W : Word) : Prop :=
  W.getLsbD 3 = cp.testBit 10 ∧ W.getLsbD 5 = cp.testBit 9 ∧ W.getLsbD 6 = cp.testBit 8 ∧ W.getLsbD 7 = cp.testBit 7 ∧
  W.getLsbD 9 = cp.testBit 6 ∧ W.getLsbD 10 = cp.testBit 5 ∧ W.getLsbD 11 = cp.testBit 4 ∧ W.getLsbD 12 = cp.testBit 3 ∧
  W.getLsbD 13 = cp.testBit 2 ∧ W.getLsbD 14 = cp.testBit 1 ∧ W.getLsbD 15 = cp.testBit 0

/-- The five parity slots are 0. -/
def ParitySlotsZero (W : Word) : Prop :=
  W.getLsbD 0 = false ∧ W.getLsbD 1 = false ∧ W.getLsbD 2 = false ∧ W.getLsbD 4 = false ∧ W.getLsbD 8 = false

/-- The two words agree at the eleven data slots. -/
def SameData (V W : Word) : Prop := ∀ i ∈ [3, 5, 6, 7, 9, 10, 11, 12, 13, 14, 15], V.getLsbD i = W.getLsbD i

/-- The four group equations of R83. -/
def GroupEquations (W : Word) : Prop :=
  W.getLsbD 1 = (W.getLsbD 3 ^^ W.getLsbD 5 ^^ W.getLsbD 7 ^^ W.getLsbD 9 ^^ W.getLsbD 11 ^^ W.getLsbD 13 ^^ W.getLsbD 15) ∧
  W.getLsbD 2 = (W.getLsbD 3 ^^ W.getLsbD 6 ^^ W.getLsbD 7 ^^ W.getLsbD 10 ^^ W.getLsbD 11 ^^ W.getLsbD 14 ^^ W.getLsbD 15) ∧
  W.getLsbD 4 = (W.getLsbD 5 ^^ W.getLsbD 6 ^^ W.getLsbD 7 ^^ W.getLsbD 12 ^^ W.getLsbD 13 ^^ W.getLsbD 14 ^^ W.getLsbD 15) ∧
  W.getLsbD 8 = (W.getLsbD 9 ^^ W.getLsbD 10 ^^ W.getLsbD 11 ^^ W.getLsbD 12 ^^ W.getLsbD 13 ^^ W.getLsbD 14 ^^ W.getLsbD 15)

/-- The overall-parity equation of R84. -/
def OverallEquation (W : Word) : Prop :=
  W.getLsbD 0 = (W.getLsbD 1 ^^ W.getLsbD 2 ^^ W.getLsbD 3 ^^ W.getLsbD 4 ^^ W.getLsbD 5 ^^ W.getLsbD 6 ^^ W.getLsbD 7 ^^
    W.getLsbD 8 ^^ W.getLsbD 9 ^^ W.getLsbD 10 ^^ W.getLsbD 11 ^^ W.getLsbD 12 ^^ W.getLsbD 13 ^^ W.getLsbD 14 ^^
    W.getLsbD 15)

/-- `W` is the codeword of `cp` (R85): its data bits, and the five parity equations. -/
def IsCodeword (cp : Nat) (W : Word) : Prop := CarriesData cp W ∧ GroupEquations W ∧ OverallEquation W

/-- `t` is the syndrome of `w`, bit by bit (R110). -/
def IsSyndrome (w : Word) (t : Syndrome) : Prop :=
  t.getLsbD 0 = (w.getLsbD 1 ^^ w.getLsbD 3 ^^ w.getLsbD 5 ^^ w.getLsbD 7 ^^ w.getLsbD 9 ^^ w.getLsbD 11 ^^ w.getLsbD 13 ^^
    w.getLsbD 15) ∧
  t.getLsbD 1 = (w.getLsbD 2 ^^ w.getLsbD 3 ^^ w.getLsbD 6 ^^ w.getLsbD 7 ^^ w.getLsbD 10 ^^ w.getLsbD 11 ^^ w.getLsbD 14 ^^
    w.getLsbD 15) ∧
  t.getLsbD 2 = (w.getLsbD 4 ^^ w.getLsbD 5 ^^ w.getLsbD 6 ^^ w.getLsbD 7 ^^ w.getLsbD 12 ^^ w.getLsbD 13 ^^ w.getLsbD 14 ^^
    w.getLsbD 15) ∧
  t.getLsbD 3 = (w.getLsbD 8 ^^ w.getLsbD 9 ^^ w.getLsbD 10 ^^ w.getLsbD 11 ^^ w.getLsbD 12 ^^ w.getLsbD 13 ^^ w.getLsbD 14 ^^
    w.getLsbD 15)

/-- `p` is the overall parity of `w`: whether the number of its bits that are 1 is odd (R111). -/
def IsOverallParity (w : Word) (p : Bool) : Prop := p = decide (weight w % 2 = 1)

/-- `y` is `w` after the correction step for syndrome `t` and parity `p` (R112 to R114): the bit at index `t` is flipped when
either is non-zero, and no bit otherwise. -/
def IsCorrected (w : Word) (t : Syndrome) (p : Bool) (y : Word) : Prop :=
  (t = 0 ∧ p = false → y = w) ∧ (t ≠ 0 ∨ p = true → y = w ^^^ (1#16 <<< t.toNat))

/-- `d` is the eleven data bits of `y` (R115, R123). -/
def IsExtracted (y : Word) (d : DataBits) : Prop :=
  d.getLsbD 10 = y.getLsbD 3 ∧ d.getLsbD 9 = y.getLsbD 5 ∧ d.getLsbD 8 = y.getLsbD 6 ∧ d.getLsbD 7 = y.getLsbD 7 ∧
  d.getLsbD 6 = y.getLsbD 9 ∧ d.getLsbD 5 = y.getLsbD 10 ∧ d.getLsbD 4 = y.getLsbD 11 ∧ d.getLsbD 3 = y.getLsbD 12 ∧
  d.getLsbD 2 = y.getLsbD 13 ∧ d.getLsbD 1 = y.getLsbD 14 ∧ d.getLsbD 0 = y.getLsbD 15

/-- Every ill-formed word with this `op` records ILLC and changes nothing else, when the block accepts commands (R68, R164). -/
def RecordsIllc (op : BitVec 3) (illFormed : Cmd → Prop) : Prop :=
  ∀ s c, s.Ready → Cmd.op c = op → illFormed c → present c s = .next (withRegs s { s.regs with flt := .illc })

/-- The command is refused, with no effect, while a fault is recorded (R167). -/
def RefusedWhileFaulted (i : Instr) : Prop := ∀ s, s.regs.flt ≠ .none → exec i s = .next s

/-- The command, run with no fault recorded, leaves `RES = W` and changes nothing else. -/
def LeavesRes (i : Instr) (W : Word) : Prop :=
  ∀ s, s.regs.flt = .none → exec i s = .next (withRegs s { s.regs with res := W })

/-- The command, run with no fault recorded, records the fault `c` and changes nothing else (R166). -/
def RecordsFault (i : Instr) (c : FaultCause) : Prop :=
  ∀ s, s.regs.flt = .none → exec i s = .next (withRegs s { s.regs with flt := c })

/-- SYND, run with no fault recorded, leaves these values in `SYN` and `PAR` and changes nothing else. -/
def LeavesSynPar (w : Word) (t : Syndrome) (p : Bool) : Prop :=
  ∀ s, s.regs.flt = .none → exec (.synd w) s = .next (withRegs s { s.regs with syn := t, par := p })

/-- CORR, run with no fault recorded, leaves these values in `SYN`, `PAR`, `COR`, `RES` and changes nothing else. -/
def LeavesCorrection (w : Word) (t : Syndrome) (p f : Bool) (y : Word) : Prop :=
  ∀ s, s.regs.flt = .none →
    exec (.corr w) s = .next (withRegs s { s.regs with syn := t, par := p, cor := f, res := y })

/-- UNPK, run with no fault recorded, leaves these values in `DAT` and `CHR` and changes nothing else. -/
def LeavesDatChr (w : Word) (d : DataBits) (c : CharCode) : Prop :=
  ∀ s, s.regs.flt = .none → exec (.unpk w) s = .next (withRegs s { s.regs with dat := d, chr := c })

/-- `DEC w, 16`, run with no fault recorded, leaves these values in the six data registers and changes nothing else. -/
def LeavesDecoded (w : Word) (r : Word) (d : DataBits) (c : CharCode) (t : Syndrome) (p f : Bool) : Prop :=
  ∀ s, s.regs.flt = .none →
    exec (.dec w 16) s = .next (withRegs s { res := r, dat := d, chr := c, syn := t, par := p, cor := f, flt := .none })

end Sys2Proof.Spec

open Sys2Proof.Spec

/-! ## Reset, ports and the step -/

/-- R33, R191: at an edge with `rst = 1` every register becomes 0 whatever the command ports carry and whatever the state was,
and afterwards the block accepts commands. -/
def Obligations.ResetClearsEveryRegister : Prop :=
  ∀ (s : State) (v : Bool) (c : Cmd), ∃ t, step (presentEdge { rst := true, cmdValid := v, cmd := c } s) = .next t ∧
    t.regs = { res := 0, dat := 0, chr := 0, syn := 0, par := false, cor := false, flt := .none } ∧
    t.inbox = s.inbox ∧ t.Ready ∧ (∀ i, i.WellFormed → present (encode i) t = exec i t)

/-- R33 for the fixed reset state: the seven values, and no fault on the ports. The empty list of inputs and the flag are the
model's own (log 1, log 2). -/
def Obligations.ResetStateHoldsSpecValues : Prop :=
  State.reset.outputs = { res := 0, dat := 0, chr := 0, syn := 0, par := false, cor := false, flt := 0, fault := false } ∧
  State.reset.inbox = [] ∧ State.reset.resetSeen = true

/-- R34 in the model's form (log 2): from power-on, whatever the registers hold, a command stops the run, an idle edge changes
nothing, and a reset leads to the reset state. -/
def Obligations.CommandBeforeResetStops : Prop :=
  ∀ (anything : Regs) (c : Cmd) (v : Bool),
    present c (State.powerOn anything) = .fault .commandBeforeReset ∧
    step (presentEdge { rst := false, cmdValid := false, cmd := c } (State.powerOn anything)) =
      .next (State.powerOn anything) ∧
    step (presentEdge { rst := true, cmdValid := v, cmd := c } (State.powerOn anything)) = .next State.reset

/-- R30: the output ports show the registers, `fault` is `FLT != 0`, and an edge with neither a reset nor a command changes no
register, whatever `cmd` carries. An empty list of inputs is such an edge (log 1). -/
def Obligations.PortsShowRegistersAndIdleHolds : Prop :=
  ∀ (s : State) (c : Cmd),
    (s.outputs.res = s.regs.res ∧ s.outputs.dat = s.regs.dat ∧ s.outputs.chr = s.regs.chr ∧ s.outputs.syn = s.regs.syn ∧
      s.outputs.par = s.regs.par ∧ s.outputs.cor = s.regs.cor ∧ s.outputs.flt = s.regs.flt.code) ∧
    (s.outputs.fault = true ↔ s.outputs.flt ≠ 0) ∧
    step (presentEdge { rst := false, cmdValid := false, cmd := c } s) = .next s ∧
    (s.inbox = [] → step s = .next s)

/-- When the next edge presents a word that decodes to a command, the step takes the edge off the inputs and runs exactly that
command. -/
def Obligations.StepRunsDecodedCommand : Prop :=
  ∀ (s : State) (c : Cmd) (rest : List Edge) (i : Instr),
    s.resetSeen = true → s.inbox = { rst := false, cmdValid := true, cmd := c } :: rest → decode c = .ok i →
      step s = exec i { s with inbox := rest }

/-- R195, R168: what one edge does, in the order of its checks: reset; idle; refusal; ILLC; the operation's own check; else the
command's writes. Each case is a clause, and each clause excludes the ones before it. -/
def Obligations.StepFollowsOrderOfChecks : Prop :=
  ∀ (s : State) (e : Edge), s.resetSeen = true →
    (e.rst = true → step (presentEdge e s) = .next (withRegs s Regs.reset)) ∧
    (e.rst = false → e.cmdValid = false → step (presentEdge e s) = .next s) ∧
    (e.rst = false → e.cmdValid = true → s.regs.flt ≠ .none → e.cmd ≠ 0xE0000000#32 → step (presentEdge e s) = .next s) ∧
    (e.rst = false → e.cmdValid = true → (s.regs.flt = .none ∨ e.cmd = 0xE0000000#32) →
      ((∀ r ∈ opcodeTable, r.selects e.cmd = false) →
        step (presentEdge e s) = .next (withRegs s { s.regs with flt := .illc })) ∧
      (∀ r ∈ opcodeTable, r.selects e.cmd = true → r.mnemonic = "ENC" ∨ r.mnemonic = "PACK" →
        2048 ≤ (Cmd.arg e.cmd).toNat → step (presentEdge e s) = .next (withRegs s { s.regs with flt := .cptl })) ∧
      (∀ r ∈ opcodeTable, r.selects e.cmd = true → r.mnemonic = "DEC" → Cmd.len e.cmd ≠ 16 →
        step (presentEdge e s) = .next (withRegs s { s.regs with flt := .malf })) ∧
      (∀ r ∈ opcodeTable, r.selects e.cmd = true →
        ((r.mnemonic = "ENC" ∨ r.mnemonic = "PACK") → (Cmd.arg e.cmd).toNat < 2048) →
        (r.mnemonic = "DEC" → Cmd.len e.cmd = 16) →
          ∃ t, step (presentEdge e s) = .next t ∧ exec (r.read e.cmd) s = .next t ∧ t.regs.flt = .none))

/-- R195: idle edges may be skipped. A run over any list of edges ends as the run over its resets and commands does. -/
def Obligations.IdleEdgesMayBeSkipped : Prop :=
  ∀ (es : List Edge) (s : State), runEdges es s = runEdges (es.filter fun e => e.rst || e.cmdValid) s

/-- R172: nothing is fatal. Once reset, every run over every list of edges goes on to a next state, and from there CLRF puts the
block back to use. -/
def Obligations.NothingIsFatal : Prop :=
  ∀ (es : List Edge) (s : State), s.resetSeen = true →
    ∃ t, runEdges es s = .next t ∧ t.resetSeen = true ∧
      present (encode .clrf) t = .next (withRegs t { t.regs with flt := .none })

/-! ## Invariants and whole-machine rules -/

/-- The reset state meets the invariant. -/
def Obligations.ResetStateMeetsInvariant : Prop := State.reset.Inv

/-- R25 and R34 as an invariant of every step from every state that meets it: the block stays reset, and `CHR` equals
`DAT[7:0]`. (`resetSeen` is the model's own field, log 2.) -/
def Obligations.EveryStepKeepsInvariant : Prop := ∀ s s' : State, s.Inv → step s = .next s' → s'.Inv

/-- R25: `CHR` always equals `DAT[7:0]`: any step keeps the equality, and a step that changes either register is a reset, an
UNPK or a DEC. -/
def Obligations.CharIsLowByteOfData : Prop :=
  ∀ s s' : State, step s = .next s' →
    (s.regs.chr = s.regs.dat.extractLsb' 0 8 → s'.regs.chr = s'.regs.dat.extractLsb' 0 8) ∧
    (s'.regs.chr ≠ s.regs.chr ∨ s'.regs.dat ≠ s.regs.dat → (nextEdge s).rst = false →
      ∃ i, decode (nextEdge s).cmd = .ok i ∧ i.mnemonic ∈ ["UNPK", "DEC"] ∧
        s'.regs.chr = s'.regs.dat.extractLsb' 0 8)

/-- R22: each register is written by the listed commands and by nothing else. For every step from every state that is not a
reset, a register that changes was written by a command of its row; and the inputs still to come are those of before. -/
def Obligations.RegistersWrittenOnlyByTheirCommands : Prop :=
  ∀ s s' : State, step s = .next s' → (nextEdge s).rst = false →
    s'.inbox = s.inbox.tail ∧
    (s'.regs ≠ s.regs → (nextEdge s).cmdValid = true) ∧
    (s'.regs.res ≠ s.regs.res →
      ∃ i, decode (nextEdge s).cmd = .ok i ∧ i.mnemonic ∈ ["ENC", "PACK", "PGEN", "CORR", "DEC"]) ∧
    (s'.regs.dat ≠ s.regs.dat → ∃ i, decode (nextEdge s).cmd = .ok i ∧ i.mnemonic ∈ ["UNPK", "DEC"]) ∧
    (s'.regs.chr ≠ s.regs.chr → ∃ i, decode (nextEdge s).cmd = .ok i ∧ i.mnemonic ∈ ["UNPK", "DEC"]) ∧
    (s'.regs.syn ≠ s.regs.syn → ∃ i, decode (nextEdge s).cmd = .ok i ∧ i.mnemonic ∈ ["SYND", "CORR", "DEC"]) ∧
    (s'.regs.par ≠ s.regs.par → ∃ i, decode (nextEdge s).cmd = .ok i ∧ i.mnemonic ∈ ["SYND", "CORR", "DEC"]) ∧
    (s'.regs.cor ≠ s.regs.cor → ∃ i, decode (nextEdge s).cmd = .ok i ∧ i.mnemonic ∈ ["CORR", "DEC"]) ∧
    (s'.regs.flt ≠ s.regs.flt → (s.regs.flt = .none ∧ s'.regs.flt ≠ .none) ∨
      (decode (nextEdge s).cmd = .ok .clrf ∧ s'.regs.flt = .none))

/-- R31: no command reads a data register. Two states that agree on `FLT` alone leave a command with the same `FLT`, and each
data register is either untouched in both or the same in both. -/
def Obligations.CommandsReadNoDataRegister : Prop :=
  ∀ (c : Cmd) (s t s' t' : State), s.resetSeen = t.resetSeen → s.regs.flt = t.regs.flt →
    present c s = .next s' → present c t = .next t' →
      s'.regs.flt = t'.regs.flt ∧
      ((s'.regs.res = s.regs.res ∧ t'.regs.res = t.regs.res) ∨ s'.regs.res = t'.regs.res) ∧
      ((s'.regs.dat = s.regs.dat ∧ t'.regs.dat = t.regs.dat) ∨ s'.regs.dat = t'.regs.dat) ∧
      ((s'.regs.chr = s.regs.chr ∧ t'.regs.chr = t.regs.chr) ∨ s'.regs.chr = t'.regs.chr) ∧
      ((s'.regs.syn = s.regs.syn ∧ t'.regs.syn = t.regs.syn) ∨ s'.regs.syn = t'.regs.syn) ∧
      ((s'.regs.par = s.regs.par ∧ t'.regs.par = t.regs.par) ∨ s'.regs.par = t'.regs.par) ∧
      ((s'.regs.cor = s.regs.cor ∧ t'.regs.cor = t.regs.cor) ∨ s'.regs.cor = t'.regs.cor)

/-- R47: every command word, legal or not, is idempotent on the state. -/
def Obligations.CommandsAreIdempotent : Prop :=
  ∀ (c : Cmd) (s s' s'' : State), present c s = .next s' → present c s' = .next s'' → s'' = s'

/-! ## Faults -/

/-- R29: the two bits of `FLT` take all four values, one for each cause, with the numbers of the table. -/
def Obligations.FaultCodesAreTheTwoBits : Prop :=
  FaultCause.none.code = 0 ∧ FaultCause.cptl.code = 1 ∧ FaultCause.malf.code = 2 ∧ FaultCause.illc.code = 3 ∧
  (∀ b : BitVec 2, ∃ c : FaultCause, c.code = b ∧ ∀ c' : FaultCause, c'.code = b → c' = c)

/-- R160: which words raise which fault: CPTL exactly ENC and PACK with a code point of 2048 or more, MALF exactly DEC with a
length other than 16, ILLC exactly the words no row of the table selects; and no other word raises any. -/
def Obligations.FaultsHaveExactlyTheirCauses : Prop :=
  ∀ (s : State) (c : Cmd), s.Ready → ∃ t, present c s = .next t ∧
    (t.regs.flt = .cptl ↔ ∃ cp, 2048 ≤ cp ∧ (decode c = .ok (.enc cp) ∨ decode c = .ok (.pack cp))) ∧
    (t.regs.flt = .malf ↔ ∃ w len, len ≠ 16 ∧ decode c = .ok (.dec w len)) ∧
    (t.regs.flt = .illc ↔ ∀ r ∈ opcodeTable, r.selects c = false)

/-- R166: fault entry. A command that raises a fault writes `FLT` and nothing else, `fault` becomes 1, and no
later command has an effect until the fault is cleared. -/
def Obligations.FaultEntryWritesOnlyFlt : Prop :=
  ∀ (s t : State) (c : Cmd), s.Ready → present c s = .next t → t.regs.flt ≠ .none →
    t = withRegs s { s.regs with flt := t.regs.flt } ∧ t.outputs.fault = true ∧
    (∀ c', c' ≠ 0xE0000000#32 → present c' t = .next t)

/-- R167: while a fault is recorded, every word but `0xE0000000`, legal or not, is a step that changes nothing; the word
`0xE0000000` clears the fault. -/
def Obligations.RefusalWhileFaulted : Prop :=
  ∀ (s : State) (c : Cmd), s.resetSeen = true → s.regs.flt ≠ .none →
    (c ≠ 0xE0000000#32 → present c s = .next s) ∧
    (c = 0xE0000000#32 → present c s = .next (withRegs s { s.regs with flt := .none }))

/-- R169: return from a fault. After a command faults, CLRF gives back exactly the state before it, and the same command, issued
again, faults again in the same way; a reset clears the fault and the data registers. -/
def Obligations.ClearedFaultRecursOnReissue : Prop :=
  ∀ (s t : State) (c : Cmd), s.Ready → present c s = .next t → t.regs.flt ≠ .none →
    present 0xE0000000#32 t = .next s ∧
    runEdges [Edge.command c, Edge.command 0xE0000000#32, Edge.command c] s = .next t ∧
    step (presentEdge Edge.reset t) = .next (withRegs t Regs.reset) ∧ (withRegs t Regs.reset).Ready

/-- R194: `fault = 0` after a word means that it was a command which was neither refused nor faulted, so the registers it writes
are fresh. -/
def Obligations.NoFaultMeansFreshResults : Prop :=
  ∀ (s t : State) (c : Cmd), s.resetSeen = true → present c s = .next t → t.ResultsFresh →
    ∃ i, decode c = .ok i ∧ exec i s = .next t ∧ (s.regs.flt = .none ∨ i = .clrf) ∧
      (∀ u : State, u.resetSeen = true → u.regs.flt = .none → ∃ v, exec i u = .next v ∧ v.ResultsFresh)

/-! ## The command word -/

/-- R60: a command word is its four fields, and as a number `(op << 29) | (rsv << 26) | (len << 21) | arg`. -/
def Obligations.CommandWordIsItsFields : Prop :=
  ∀ c : Cmd, commandWord (Cmd.op c) (Cmd.rsv c) (Cmd.len c) (Cmd.arg c) = c ∧
    c.toNat = (Cmd.op c).toNat * 2 ^ 29 + (Cmd.rsv c).toNat * 2 ^ 26 + (Cmd.len c).toNat * 2 ^ 21 + (Cmd.arg c).toNat ∧
    (Cmd.word c).toNat = (Cmd.arg c).toNat % 2 ^ 16 ∧ (Cmd.argHigh c).toNat = (Cmd.arg c).toNat / 2 ^ 16

/-- Decoding an encoded well-formed command gives it back, every operand at every value its field admits. -/
def Obligations.DecodeInvertsEncode : Prop := ∀ i : Instr, i.WellFormed → decode (encode i) = .ok i

/-- Encoding a decoded command gives the word back: each legal word has one meaning and every bit of it is used (R68). -/
def Obligations.EncodeInvertsDecode : Prop :=
  ∀ (c : Cmd) (i : Instr), decode c = .ok i → i.WellFormed ∧ encode i = c

/-- R67: decoding is total. At most one row of the opcode map selects a word; when one does the command is that row's operation
with its fields; when none does the word is illegal and raises ILLC. -/
def Obligations.OpcodeMapDecidesEveryWord : Prop :=
  ∀ c : Cmd,
    (∀ r ∈ opcodeTable, ∀ r' ∈ opcodeTable, r.selects c = true → r'.selects c = true → r.mnemonic = r'.mnemonic) ∧
    (∀ r ∈ opcodeTable, r.selects c = true → decode c = .ok (r.read c) ∧ (r.read c).mnemonic = r.mnemonic) ∧
    ((∀ r ∈ opcodeTable, r.selects c = false) → (∃ why, decode c = .error why) ∧
      ∀ s : State, s.Ready → present c s = .next (withRegs s { s.regs with flt := .illc }))

/-- R68: the illegal words are exactly the four cases, each raises ILLC and does nothing else, the all-zero word is `ENC 0` and
the all-ones word is illegal. -/
def Obligations.IllegalWordsAreTheFourCases : Prop :=
  (∀ c : Cmd, (∃ why, decode c = .error why) ↔
    (Cmd.rsv c ≠ 0 ∨ (Cmd.op c ∈ [0, 2, 3, 4, 5, 6, 7] ∧ Cmd.len c ≠ 0) ∨ (Cmd.op c ∈ [1, 3, 4, 5, 6] ∧ Cmd.argHigh c ≠ 0) ∨
      (Cmd.op c = 7 ∧ Cmd.arg c ≠ 0))) ∧
  (∀ (s : State) (c : Cmd), s.Ready → (∃ why, decode c = .error why) →
    present c s = .next (withRegs s { s.regs with flt := .illc })) ∧
  decode 0x00000000#32 = .ok (.enc 0) ∧ (∃ why, decode 0xFFFFFFFF#32 = .error why)

/-- The reason the decoder gives for an illegal word is a case of R68 that holds of it (the choice among several is the
model's: the first in the rule's order, log 5). -/
def Obligations.IllegalReasonHolds : Prop :=
  ∀ (c : Cmd) (why : IllegalWord), decode c = .error why →
    match why with
    | .reservedBitsSet => Cmd.rsv c ≠ 0
    | .lengthFieldUnused => Cmd.op c ≠ 1 ∧ Cmd.len c ≠ 0
    | .wordOperandTooWide => Cmd.op c ∈ [1, 3, 4, 5, 6] ∧ Cmd.argHigh c ≠ 0
    | .clrfArgumentSet => Cmd.op c = 7 ∧ Cmd.arg c ≠ 0

/-- R73: the worked encodings. -/
def Obligations.WorkedEncodingsDecode : Prop :=
  decode 0x00000041#32 = .ok (.enc 65) ∧ decode 0x00000800#32 = .ok (.enc 2048) ∧
  decode 0x22008214#32 = .ok (.dec 0x8214#16 16) ∧ decode 0x20A00014#32 = .ok (.dec 0x0014#16 5) ∧
  decode 0x40000041#32 = .ok (.pack 65) ∧ decode 0x60008200#32 = .ok (.pgen 0x8200#16) ∧
  decode 0x80008234#32 = .ok (.synd 0x8234#16) ∧ decode 0xA0008234#32 = .ok (.corr 0x8234#16) ∧
  decode 0xC0008214#32 = .ok (.unpk 0x8214#16) ∧ decode 0xE0000000#32 = .ok .clrf ∧
  encode (.enc 65) = 0x00000041#32 ∧ encode (.enc 2048) = 0x00000800#32 ∧ encode (.dec 0x8214#16 16) = 0x22008214#32 ∧
  encode (.dec 0x0014#16 5) = 0x20A00014#32 ∧ encode (.pack 65) = 0x40000041#32 ∧ encode (.pgen 0x8200#16) = 0x60008200#32 ∧
  encode (.synd 0x8234#16) = 0x80008234#32 ∧ encode (.corr 0x8234#16) = 0xA0008234#32 ∧
  encode (.unpk 0x8214#16) = 0xC0008214#32 ∧ encode .clrf = 0xE0000000#32 ∧
  (∀ c ∈ [0x04000041#32, 0x00200041#32, 0x80018234#32, 0xE0000001#32], ∃ why, decode c = .error why)

/-! ## The commands -/

/-- R88, `ENC cp`. -/
def Obligations.EncWritesCodeword : Prop :=
  (∀ cp < 2 ^ 21, encode (.enc cp) = BitVec.ofNat 32 cp) ∧
  (∀ cp < 2048, ∃ W, IsCodeword cp W ∧ LeavesRes (.enc cp) W) ∧
  (∀ cp ≥ 2048, RecordsFault (.enc cp) .cptl) ∧
  (∀ cp, RefusedWhileFaulted (.enc cp)) ∧
  RecordsIllc 0 (fun c => Cmd.len c ≠ 0 ∨ Cmd.rsv c ≠ 0) ∧
  LeavesRes (.enc 0) 0x0000#16 ∧ LeavesRes (.enc 2047) 0xFFFF#16 ∧ LeavesRes (.enc 65) 0x8214#16 ∧
  stringForm 0x8214#16 = ['0', '0', '1', '0', '1', '0', '0', '0', '0', '1', '0', '0', '0', '0', '0', '1']

/-- R89, `PACK cp`. -/
def Obligations.PackPlacesDataBits : Prop :=
  (∀ cp < 2 ^ 21, encode (.pack cp) = 0x40000000#32 ||| BitVec.ofNat 32 cp) ∧
  (∀ cp < 2048, ∃ W, CarriesData cp W ∧ ParitySlotsZero W ∧ LeavesRes (.pack cp) W ∧
    (validCodeword W = true ↔ LeavesRes (.enc cp) W)) ∧
  (∀ cp ≥ 2048, RecordsFault (.pack cp) .cptl) ∧
  (∀ cp, RefusedWhileFaulted (.pack cp)) ∧
  RecordsIllc 2 (fun c => Cmd.len c ≠ 0 ∨ Cmd.rsv c ≠ 0) ∧
  LeavesRes (.pack 0) 0x0000#16 ∧ LeavesRes (.pack 2047) 0xFEE8#16 ∧ LeavesRes (.pack 65) 0x8200#16 ∧
  LeavesRes (.pack 105) 0x9600#16 ∧ LeavesRes (.enc 105) 0x9600#16 ∧
  stringForm 0x8200#16 = ['0', '0', '0', '0', '0', '0', '0', '0', '0', '1', '0', '0', '0', '0', '0', '1']

/-- R90, `PGEN w`. -/
def Obligations.PgenRecomputesParity : Prop :=
  (∀ w, encode (.pgen w) = 0x60000000#32 ||| w.setWidth 32) ∧
  (∀ w, ∃ W, SameData w W ∧ GroupEquations W ∧ OverallEquation W ∧ validCodeword W = true ∧ LeavesRes (.pgen w) W ∧
    LeavesRes (.pgen W) W) ∧
  (∀ w W, SameData w W → validCodeword W = true → LeavesRes (.pgen w) W) ∧
  (∀ w, RefusedWhileFaulted (.pgen w)) ∧
  RecordsIllc 3 (fun c => Cmd.len c ≠ 0 ∨ Cmd.rsv c ≠ 0 ∨ Cmd.argHigh c ≠ 0) ∧
  LeavesRes (.pgen 0x0117#16) 0x0000#16 ∧ LeavesRes (.pgen 0xFFFF#16) 0xFFFF#16 ∧ LeavesRes (.pgen 0xABCD#16) 0xAACC#16 ∧
  LeavesRes (.pgen 0x7DEF#16) 0x7DEB#16 ∧ LeavesRes (.pgen 0x8200#16) 0x8214#16

/-- R121, `SYND w`. -/
def Obligations.SyndWritesSyndromeAndParity : Prop :=
  (∀ w, encode (.synd w) = 0x80000000#32 ||| w.setWidth 32) ∧
  (∀ w, ∃ t p, IsSyndrome w t ∧ IsOverallParity w p ∧ LeavesSynPar w t p) ∧
  (∀ w, RefusedWhileFaulted (.synd w)) ∧
  RecordsIllc 4 (fun c => Cmd.len c ≠ 0 ∨ Cmd.rsv c ≠ 0 ∨ Cmd.argHigh c ≠ 0) ∧
  LeavesSynPar 0x0000#16 0 false ∧ LeavesSynPar 0x0001#16 0 true ∧ LeavesSynPar 0xFFFF#16 0 false ∧
  LeavesSynPar 0x8000#16 15 true ∧ LeavesSynPar 0x8234#16 5 true

/-- R122, `CORR w`. -/
def Obligations.CorrFlipsAtSyndrome : Prop :=
  (∀ w, encode (.corr w) = 0xA0000000#32 ||| w.setWidth 32) ∧
  (∀ w, ∃ t p y, IsSyndrome w t ∧ IsOverallParity w p ∧ IsCorrected w t p y ∧
    LeavesCorrection w t p (decide (t ≠ 0 ∨ p = true)) y) ∧
  (∀ w, validCodeword w = true → LeavesCorrection w 0 false false w) ∧
  (∀ w, RefusedWhileFaulted (.corr w)) ∧
  RecordsIllc 5 (fun c => Cmd.len c ≠ 0 ∨ Cmd.rsv c ≠ 0 ∨ Cmd.argHigh c ≠ 0) ∧
  LeavesCorrection 0x0001#16 0 true true 0x0000#16 ∧ LeavesCorrection 0x8212#16 3 false true 0x821A#16 ∧
  LeavesCorrection 0x821A#16 0 true true 0x821B#16 ∧ LeavesCorrection 0x8234#16 5 true true 0x8214#16

/-- R123, `UNPK w`. -/
def Obligations.UnpkExtractsDataBits : Prop :=
  (∀ w, encode (.unpk w) = 0xC0000000#32 ||| w.setWidth 32) ∧
  (∀ w, ∃ d, IsExtracted w d ∧ LeavesDatChr w d (d.extractLsb' 0 8)) ∧
  (∀ v w d c, SameData v w → LeavesDatChr v d c → LeavesDatChr w d c) ∧
  (∀ w, RefusedWhileFaulted (.unpk w)) ∧
  RecordsIllc 6 (fun c => Cmd.len c ≠ 0 ∨ Cmd.rsv c ≠ 0 ∨ Cmd.argHigh c ≠ 0) ∧
  LeavesDatChr 0x0117#16 0 0 ∧ LeavesDatChr 0xFFFF#16 0x7FF#11 0xFF#8 ∧ LeavesDatChr 0x0068#16 0x700#11 0x00#8 ∧
  LeavesDatChr 0x8214#16 0x041#11 0x41#8

/-- R124, `DEC w, len`. -/
def Obligations.DecDecodesChunk : Prop :=
  (∀ w len, len < 32 → encode (.dec w len) = 0x20000000#32 ||| (BitVec.ofNat 32 len <<< 21) ||| w.setWidth 32) ∧
  (∀ w, ∃ t p y d, IsSyndrome w t ∧ IsOverallParity w p ∧ IsCorrected w t p y ∧ IsExtracted y d ∧
    LeavesDecoded w y d (d.extractLsb' 0 8) t p (decide (t ≠ 0 ∨ p = true))) ∧
  (∀ w len, len ≠ 16 → RecordsFault (.dec w len) .malf) ∧
  (∀ w len, RefusedWhileFaulted (.dec w len)) ∧
  RecordsIllc 1 (fun c => Cmd.rsv c ≠ 0 ∨ Cmd.argHigh c ≠ 0) ∧
  LeavesDecoded 0x0000#16 0x0000#16 0x000#11 0x00#8 0 false false ∧
  LeavesDecoded 0x0001#16 0x0000#16 0x000#11 0x00#8 0 true true ∧
  LeavesDecoded 0x8241#16 0x8241#16 0x141#11 0x41#8 0 false false ∧
  LeavesDecoded 0x0014#16 0x0054#16 0x100#11 0x00#8 6 false true ∧
  LeavesDecoded 0x8234#16 0x8214#16 0x041#11 0x41#8 5 true true

/-- R140, `CLRF`. -/
def Obligations.ClrfClearsFault : Prop :=
  encode .clrf = 0xE0000000#32 ∧
  (∀ s, exec .clrf s = .next (withRegs s { s.regs with flt := .none })) ∧
  (∀ s, s.regs.flt = .none → exec .clrf s = .next s) ∧
  (∀ s c, s.resetSeen = true → Cmd.op c = 7 → c ≠ 0xE0000000#32 →
    (s.regs.flt = .none → present c s = .next (withRegs s { s.regs with flt := .illc })) ∧
    (s.regs.flt ≠ .none → present c s = .next s)) ∧
  (∀ s i, s.resetSeen = true → s.regs.flt ≠ .none → present (encode i) s ≠ .next s → i = .clrf) ∧
  (∀ s, s.Ready → ∃ t u, present (encode (.enc 2048)) s = .next t ∧ t.regs.flt = .cptl ∧
    present (encode .clrf) t = .next u ∧ u.outputs.fault = false ∧
    present (encode (.enc 65)) u = .next (withRegs u { u.regs with res := 0x8214#16 }))

/-! ## Laws of the codec, seen on the block -/

/-- R84: in terms of the data bits alone, `code[0] = m0 ^ m1 ^ m2 ^ m4 ^ m5 ^ m7 ^ m10`, for every character. The
spec derives this from R82 and R83. -/
def Obligations.OverallParityOfDataBits : Prop :=
  ∀ (s : State) (cp : Nat), s.regs.flt = .none → cp < 2048 → ∃ t, exec (.enc cp) s = .next t ∧ OverallEquation t.regs.res ∧
    overallParity t.regs.res = false ∧
    t.regs.res.getLsbD 0 = (cp.testBit 10 ^^ cp.testBit 9 ^^ cp.testBit 8 ^^ cp.testBit 6 ^^ cp.testBit 5 ^^ cp.testBit 3 ^^
      cp.testBit 0)

/-- R110, R111: the syndrome is 0 exactly when the four group equations hold, `w[0]` never affects it, and flipping the bit at
index `i` changes it by `i` and complements the overall parity. -/
def Obligations.FlippedBitMovesSyndrome : Prop :=
  ∀ w : Word, (syndrome w = 0 ↔ GroupEquations w) ∧ IsSyndrome w (syndrome w) ∧ IsOverallParity w (overallParity w) ∧
    (∀ i < 16, syndrome (w ^^^ (1#16 <<< i)) = syndrome w ^^^ BitVec.ofNat 4 i ∧
      overallParity (w ^^^ (1#16 <<< i)) = !overallParity w) ∧
    syndrome (w ^^^ 1#16) = syndrome w

/-- R87 (b): a word is the codeword of some character, as ENC leaves it, exactly when SYND finds syndrome 0 and parity 0. -/
def Obligations.ValidCodewordsAreTheEncoded : Prop :=
  ∀ w : Word, (∃ cp < 2048, LeavesRes (.enc cp) w) ↔ LeavesSynPar w 0 false

/-- R87 (a), (c), (e): the encoder is injective and linear over exclusive-or, and the sum of two valid codewords is valid. -/
def Obligations.EncoderIsInjectiveAndLinear : Prop :=
  (∀ a < 2048, ∀ b < 2048, encodeWord a = encodeWord b → a = b) ∧
  (∀ a < 2048, ∀ b < 2048, ∀ v w, encodeWord a = some v → encodeWord b = some w → encodeWord (a ^^^ b) = some (v ^^^ w)) ∧
  (∀ v w, validCodeword v = true → validCodeword w = true → validCodeword (v ^^^ w) = true) ∧
  encodeWord 0 = some 0x0000#16 ∧ encodeWord 2047 = some 0xFFFF#16 ∧ (∀ cp ≥ 2048, encodeWord cp = none)

/-- R87 (d): two different valid codewords differ in at least 4 bit positions, and some pairs in exactly 4. -/
def Obligations.CodewordsDifferInFourBits : Prop :=
  (∀ v w : Word, validCodeword v = true → validCodeword w = true → v ≠ w → 4 ≤ weight (v ^^^ w)) ∧
  (∃ v w : Word, validCodeword v = true ∧ validCodeword w = true ∧ weight (v ^^^ w) = 4)

/-- R91: ENC is PACK then PGEN; PGEN re-encodes the data bits UNPK finds; UNPK undoes PACK; ENC and PACK fault alike. The spec
derives the rule from R88, R89 and R90. (Beyond 2^21 the last clause is about operands no word carries, log 11.) -/
def Obligations.EncIsPackThenPgen : Prop :=
  (∀ cp < 2048, ∃ v w, LeavesRes (.pack cp) v ∧ LeavesRes (.pgen v) w ∧ LeavesRes (.enc cp) w) ∧
  (∀ w, ∃ d c W, LeavesDatChr w d c ∧ LeavesRes (.pgen w) W ∧ encodeWord d.toNat = some W) ∧
  (∀ cp < 2048, ∃ v c, LeavesRes (.pack cp) v ∧ LeavesDatChr v (BitVec.ofNat 11 cp) c) ∧
  (∀ cp, RecordsFault (.enc cp) .cptl ↔ RecordsFault (.pack cp) .cptl)

/-- R125: DEC is CORR then UNPK of the corrected word; DEC, CORR and SYND agree on `SYN` and `PAR`; DEC undoes ENC. The spec
derives the rule from R121 to R124. -/
def Obligations.DecIsCorrThenUnpk : Prop :=
  (∀ (s : State) (w : Word), s.regs.flt = .none → ∃ t u, exec (.corr w) s = .next t ∧ exec (.unpk t.regs.res) t = .next u ∧
    exec (.dec w 16) s = .next u) ∧
  (∀ (s : State) (w : Word), s.regs.flt = .none → ∃ t u v, exec (.synd w) s = .next t ∧ exec (.corr w) s = .next u ∧
    exec (.dec w 16) s = .next v ∧ u.regs.syn = t.regs.syn ∧ v.regs.syn = t.regs.syn ∧ u.regs.par = t.regs.par ∧
    v.regs.par = t.regs.par) ∧
  (∀ (s : State) (cp : Nat), s.regs.flt = .none → cp < 2048 → ∃ t u, exec (.enc cp) s = .next t ∧
    exec (.dec t.regs.res 16) t = .next u ∧ u.regs.dat = BitVec.ofNat 11 cp ∧ u.regs.chr = BitVec.ofNat 8 (cp % 256) ∧
    u.regs.cor = false)

/-- R114: the corrected word is a valid codeword exactly when the parity is 1 or the syndrome is 0, and otherwise it has odd
overall parity; at most one bit is changed. -/
def Obligations.CorrectedWordValidity : Prop :=
  ∀ w : Word, (validCodeword (correctWord w) = true ↔ (overallParity w = true ∨ syndrome w = 0)) ∧
    (overallParity w = false → syndrome w ≠ 0 → overallParity (correctWord w) = true) ∧
    weight (w ^^^ correctWord w) ≤ 1

/-- R118: the single-error guarantee, on the block: for every character and every index, DEC of the codeword, clean or with
that one bit flipped, recovers the codeword and the data bits and reports the index; the character is `cp mod 256`, which is
`cp` exactly when `cp <= 255`. -/
def Obligations.SingleErrorIsCorrected : Prop :=
  ∀ cp < 2048, ∃ C, LeavesRes (.enc cp) C ∧
    LeavesDecoded C C (BitVec.ofNat 11 cp) (BitVec.ofNat 8 (cp % 256)) 0 false false ∧
    (∀ i < 16, LeavesDecoded (C ^^^ (1#16 <<< i)) C (BitVec.ofNat 11 cp) (BitVec.ofNat 8 (cp % 256)) (BitVec.ofNat 4 i) true
      true) ∧
    ((BitVec.ofNat 8 (cp % 256)).toNat = cp ↔ cp ≤ 255)

/-- R119: two errors are miscorrected in silence: the flip is made at the exclusive-or of the two indices, the data bits are
right exactly when one of them is index 0, the character is right for that and the twelve listed patterns only, and no fault
is recorded. With three errors the parity is 1 and the data bits are never right. -/
def Obligations.TwoErrorsAreMiscorrected : Prop :=
  (∀ cp < 2048, ∃ C, LeavesRes (.enc cp) C ∧
    ∀ a b, a < b → b < 16 →
      ∃ d c, LeavesDecoded (C ^^^ (1#16 <<< a) ^^^ (1#16 <<< b)) (C ^^^ (1#16 <<< a) ^^^ (1#16 <<< b) ^^^ (1#16 <<< (a ^^^ b))) d c
          (BitVec.ofNat 4 (a ^^^ b)) false true ∧ a ^^^ b ≠ 0 ∧
        (d = BitVec.ofNat 11 cp ↔ a = 0) ∧
        (c = BitVec.ofNat 8 (cp % 256) ↔ a = 0 ∨ (a, b) ∈ [(1, 2), (1, 3), (1, 4), (1, 5), (2, 3), (2, 4), (2, 6), (3, 5),
          (3, 6), (4, 5), (4, 6), (5, 6)])) ∧
  (∀ cp < 2048, ∃ C, LeavesRes (.enc cp) C ∧
    ∀ a b e, a < b → b < e → e < 16 →
      ∃ r d c t f, LeavesDecoded (C ^^^ (1#16 <<< a) ^^^ (1#16 <<< b) ^^^ (1#16 <<< e)) r d c t true f ∧
        d ≠ BitVec.ofNat 11 cp)

/-- R116, R126: the character of a word depends on the bits at indices 7 and 9 to 15 of the corrected word alone, and a code
point from 256 to 2047 is encoded without fault and decodes to a different character, its low 8 bits. -/
def Obligations.CharacterIsTruncated : Prop :=
  (∀ v w : Word, (∀ i ∈ [7, 9, 10, 11, 12, 13, 14, 15], v.getLsbD i = w.getLsbD i) →
    ∀ d c d' c', LeavesDatChr v d c → LeavesDatChr w d' c' → c = c') ∧
  (∀ w, ∃ r d t p f, LeavesDecoded w r d (decodeWord w) t p f ∧ r = correctWord w ∧ LeavesDatChr r d (decodeWord w)) ∧
  (∀ cp, 256 ≤ cp → cp < 2048 → ∃ C c, LeavesRes (.enc cp) C ∧
    LeavesDecoded C C (BitVec.ofNat 11 cp) c 0 false false ∧ c.toNat = cp % 256 ∧ c.toNat ≠ cp)

/-- R44: in stream order a codeword reads `P0 P1 P2 m0 P4 m1 m2 m3 P8 m4 m5 m6 m7 m8 m9 m10`, and the character is bit-reversed
relative to the bus: `CHR[0]` comes from bit 15 and `CHR[7]` from bit 7. -/
def Obligations.StreamOrderOfACodeword : Prop :=
  (∀ cp < 2048, ∃ W, LeavesRes (.enc cp) W ∧
    streamOfWord W = [W.getLsbD 0, W.getLsbD 1, W.getLsbD 2, cp.testBit 10, W.getLsbD 4, cp.testBit 9, cp.testBit 8,
      cp.testBit 7, W.getLsbD 8, cp.testBit 6, cp.testBit 5, cp.testBit 4, cp.testBit 3, cp.testBit 2, cp.testBit 1,
      cp.testBit 0]) ∧
  (∀ w, ∃ d c, LeavesDatChr w d c ∧ c.getLsbD 0 = w.getLsbD 15 ∧ c.getLsbD 7 = w.getLsbD 7)

/-- R8: a word is its string form, sixteen symbols with `code[0]` leftmost, and the index form lists its set bits. -/
def Obligations.WrittenFormsOfAWord : Prop :=
  ∀ w : Word, (stringForm w).length = 16 ∧ wordOfStringForm (stringForm w) = some w ∧
    (∀ i < 16, (stringForm w)[i]? = some (if w.getLsbD i then '1' else '0')) ∧
    (∀ i, i ∈ indexForm w ↔ w.getLsbD i = true)

/-- R70, R71 (a): the written form of every well-formed command reads as the command. Besides, a word may be written in its
string form in double quotes in every command with a word operand, `DEC w` is `DEC w, 16`, a number may be hexadecimal or
decimal, and a character in single quotes is its code point. Which number a quoted character other than `'A'` stands for is the
model's choice (log 17), and so is the layout of a line where R70 is silent (log 10). -/
def Obligations.WrittenCommandsRead : Prop :=
  (∀ i : Instr, i.WellFormed → readCommand (commandText i).toList = some i) ∧
  (∀ w : Word,
    readCommand (['P', 'G', 'E', 'N', ' ', '"'] ++ stringForm w ++ ['"']) = some (.pgen w) ∧
    readCommand (['S', 'Y', 'N', 'D', ' ', '"'] ++ stringForm w ++ ['"']) = some (.synd w) ∧
    readCommand (['C', 'O', 'R', 'R', ' ', '"'] ++ stringForm w ++ ['"']) = some (.corr w) ∧
    readCommand (['U', 'N', 'P', 'K', ' ', '"'] ++ stringForm w ++ ['"']) = some (.unpk w) ∧
    readCommand (['D', 'E', 'C', ' ', '"'] ++ stringForm w ++ ['"']) = some (.dec w 16)) ∧
  (∀ w : Word, ∀ len < 32,
    readCommand (['D', 'E', 'C', ' ', '"'] ++ stringForm w ++ ['"', ',', ' '] ++ Nat.toDigits 10 len) = some (.dec w len) ∧
    readCommand (['D', 'E', 'C', ' '] ++ Nat.toDigits 10 w.toNat ++ [',', ' ', '0', 'x'] ++ Nat.toDigits 16 len) =
      some (.dec w len)) ∧
  (∀ w : Word,
    readCommand (['P', 'G', 'E', 'N', ' '] ++ Nat.toDigits 10 w.toNat) = some (.pgen w) ∧
    readCommand (['S', 'Y', 'N', 'D', ' '] ++ Nat.toDigits 10 w.toNat) = some (.synd w) ∧
    readCommand (['C', 'O', 'R', 'R', ' '] ++ Nat.toDigits 10 w.toNat) = some (.corr w) ∧
    readCommand (['U', 'N', 'P', 'K', ' '] ++ Nat.toDigits 10 w.toNat) = some (.unpk w) ∧
    readCommand (['D', 'E', 'C', ' '] ++ Nat.toDigits 10 w.toNat) = some (.dec w 16)) ∧
  (∀ cp < 2 ^ 21,
    readCommand (['E', 'N', 'C', ' ', '0', 'x'] ++ Nat.toDigits 16 cp) = some (.enc cp) ∧
    readCommand (['P', 'A', 'C', 'K', ' ', '0', 'x'] ++ Nat.toDigits 16 cp) = some (.pack cp)) ∧
  (∀ c : Char, readCommand ['E', 'N', 'C', ' ', '\'', c, '\''] = some (.enc c.toNat) ∧
    readCommand ['P', 'A', 'C', 'K', ' ', '\'', c, '\''] = some (.pack c.toNat)) ∧
  readCommand ['E', 'N', 'C', ' ', '\'', 'A', '\''] = some (.enc 65) ∧
  readCommand ['E', 'N', 'C', ' ', '6', '5'] = some (.enc 65) ∧
  readCommand ['D', 'E', 'C', ' ', '0', 'x', '8', '2', '1', '4', ',', ' ', '1', '6'] = some (.dec 0x8214#16 16) ∧
  readCommand ['C', 'L', 'R', 'F'] = some .clrf

/-! ## Streams and batches -/

/-- R41, R42: the stream of a text has 16 bits a character, and its chunk `k` is the codeword of character `k`. -/
def Obligations.StreamChunksAreCodewords : Prop :=
  ∀ (text : List Nat) (S : List Bool), encodeText text = .complete S →
    S.length = 16 * text.length ∧ ∀ k < text.length, ∃ cp, text[k]? = some cp ∧ encodeWord cp = some (chunk S k)

/-- R146, R86, R148: ENCS on the block computes `encode(text)`. From any state that accepts commands it ends in a next state
with the complete stream, no fault recorded, when every code point is below 2048, and with the error otherwise, CPTL recorded
when every character of the text could be presented. -/
def Obligations.EncsComputesEncode : Prop :=
  ∀ (text : List Nat) (s : State), s.Ready → ∃ b, encs text s = .next b ∧ b.result = encodeText text ∧
    b.block.inbox = s.inbox ∧ b.block.resetSeen = true ∧
    ((∀ c ∈ text, c < 2048) → b.result = .complete ((text.flatMap fun c => streamOfWord (encodeData (BitVec.ofNat 11 c)))) ∧
      b.block.regs.flt = .none) ∧
    ((∃ c ∈ text, 2048 ≤ c) → b.result = .failed .codePointTooLarge ∧
      ((∀ c ∈ text, c < 2 ^ 21) → b.block.regs.flt = .cptl))

/-- R147, R45, R148: DECS on the block computes `decode(stream)`. From any state that accepts commands it ends in a next state
with the complete text and no fault when the length is a multiple of 16, and otherwise with `MalformedStreamError`, MALF
recorded and no text. -/
def Obligations.DecsComputesDecode : Prop :=
  ∀ (S : List Bool) (s : State), s.Ready → ∃ b, decs S s = .next b ∧ b.block.inbox = s.inbox ∧ b.block.resetSeen = true ∧
    (S.length % 16 = 0 → ∃ out, b.result = .complete out ∧ decodeStream S = .complete out.text ∧
      out.text.length = S.length / 16 ∧ b.block.regs.flt = .none) ∧
    (S.length % 16 ≠ 0 → b.result = .failed .malformedStream ∧ decodeStream S = .failed .malformedStream ∧
      b.block.regs.flt = .malf)

/-- R147: the three hosts the rule allows agree on the result of DECS, and the one that presents the partial chunk first leaves
the data registers alone when there is one. -/
def Obligations.DecsHostsAgree : Prop :=
  ∀ (S : List Bool) (s : State), s.Ready → ∃ b b' b'', decs S s = .next b ∧ decsTailFirst S s = .next b' ∧
    decsUnpresented S s = .next b'' ∧ b'.result = b.result ∧ b''.result = b.result ∧
    (S.length % 16 ≠ 0 → b'.block = withRegs s { s.regs with flt := .malf } ∧ b''.block = s)

/-- R149: empty inputs. No command is issued, so the block is untouched, and the result is the empty stream or text.
The spec derives the rule from R146 and R147. On a block with a fault recorded the result is the model's choice (log 19). -/
def Obligations.EmptyBatchesIssueNothing : Prop :=
  ∀ s : State, encs [] s = .next { block := s, result := .complete [] } ∧
    decs [] s = .next { block := s, result := .complete { text := [], corrected := [] } }

/-- R148: after a batch that ended in an error the block refuses every further command of it, CLRF puts the block back to use
with its data registers as they were, and after a batch that ended well CLRF changes nothing. -/
def Obligations.FailedBatchIsAcknowledged : Prop :=
  (∀ (text : List Nat) (s : State) b, s.Ready → encs text s = .next b →
    acknowledgeFault b.block = .next (withRegs b.block { b.block.regs with flt := .none }) ∧ b.block.resetSeen = true ∧
    (b.block.regs.flt ≠ .none → ∀ i, i ≠ .clrf → issue i b.block = .next b.block)) ∧
  (∀ (S : List Bool) (s : State) b, s.Ready → decs S s = .next b →
    acknowledgeFault b.block = .next (withRegs b.block { b.block.regs with flt := .none }) ∧ b.block.resetSeen = true ∧
    (b.block.regs.flt ≠ .none → ∀ i, i ≠ .clrf → issue i b.block = .next b.block))

/-- R150 (a), (b), (d): the round trip on the block. DECS of what ENCS gives is the text with every code point modulo 256, and
nothing was corrected; so over code points 0 to 255 it is the text itself. -/
def Obligations.RoundTripOfAText : Prop :=
  ∀ (text : List Nat) (s : State), s.Ready → (∀ c ∈ text, c < 2048) →
    ∃ b S b', encs text s = .next b ∧ b.result = .complete S ∧ S.length = 16 * text.length ∧ decs S b.block = .next b' ∧
      b'.result = .complete { text := text.map fun c => BitVec.ofNat 8 (c % 256), corrected := [] } ∧
      ((∀ c ∈ text, c ≤ 255) → (text.map fun c => BitVec.ofNat 8 (c % 256)).map BitVec.toNat = text)

/-- R150 (c): single-error correction per chunk. With an error mask that has at most one bit in each aligned group of 16, DECS
gives the same text, and reports as corrected exactly the chunks that had an error, each with the index of the flipped bit.
The form of the report is the model's choice (log 6). -/
def Obligations.OneErrorPerChunkIsCorrected : Prop :=
  ∀ (text : List Nat) (S E : List Bool) (s : State), s.Ready → encodeText text = .complete S → E.length = S.length →
    (∀ k < text.length, weight (chunk E k) ≤ 1) →
    ∃ b, decs (xorStream S E) s = .next b ∧
      b.result = .complete
        { text := text.map fun c => BitVec.ofNat 8 (c % 256),
          corrected := ((List.range text.length).filter fun k => chunk E k != 0).map fun k => (k, syndrome (chunk E k)) } ∧
      (∀ k < text.length, ∀ i < 16, chunk E k = 1#16 <<< i → syndrome (chunk E k) = BitVec.ofNat 4 i)

/-! ## The channel -/

/-- R103, R107: the net effect of several events is the exclusive-or of the stream with the mask in which bit `n` is 1 exactly
when an odd number of events covered `n`. -/
def Obligations.NoiseIsAnErrorMask : Prop :=
  ∀ (draws : List Nat) (r : Nat) (S S' : List Bool), injectNoise S draws r = some S' →
    S' = xorStream S (netMask S.length draws r)

/-- R101, R102, R106: noise keeps the length, has a result for every list of centres within the stream, and a single event with
centre `i` flips exactly the bits from `i - r` to `i + r` that exist, at most `2r + 1` of them. -/
def Obligations.NoiseIsContained : Prop :=
  (∀ (draws : List Nat) (r : Nat) (S S' : List Bool), injectNoise S draws r = some S' → S'.length = S.length) ∧
  (∀ (draws : List Nat) (r : Nat) (S : List Bool), (∀ i ∈ draws, i < S.length) → ∃ S', injectNoise S draws r = some S') ∧
  (∀ (i r : Nat) (S : List Bool), i < S.length → ∃ S', injectNoise S [i] r = some S' ∧
    (∀ n (h : n < S.length) (h' : n < S'.length), S'[n] ≠ S[n] ↔ (i ≤ n + r ∧ n ≤ i + r)) ∧
    ((List.range S.length).filter fun n => S'[n]? != S[n]?).length ≤ 2 * r + 1)
end

