-- ==== Sys2Proof/Laws/Assembly.lean ====
section
/-! SUPPORT. Reading a number back: digits are read as they are written, decimal and hexadecimal. -/

namespace Sys2Proof.Machine

theorem digitOfSymbol_digitChar (b d : Nat) (hb : b ≤ 16) (h : d < b) : digitOfSymbol b (Nat.digitChar d) = some d := by
  interval_cases b <;> interval_cases d <;> rfl

theorem digitOfSymbol_digitSymbol (b d : Nat) (hb : b ≤ 16) (h : d < b) : digitOfSymbol b (digitSymbol d) = some d := by
  interval_cases b <;> interval_cases d <;> rfl

/-- Digits are read from left to right. -/
theorem readDigits_append (b : Nat) (xs ys : List Char) (n : Nat) :
    readDigits b (xs ++ ys) n = (readDigits b xs n).bind (readDigits b ys) := by
  induction xs generalizing n with
  | nil => rfl
  | cons x xs ih =>
    simp only [List.cons_append, readDigits]
    cases digitOfSymbol b x with
    | none => rfl
    | some d => exact ih _

/-- The digits of a number read as the number. -/
theorem readDigits_toDigits (b n : Nat) (h1 : 1 < b) (hb : b ≤ 16) : readDigits b (Nat.toDigits b n) 0 = some n := by
  induction n using Nat.strongRecOn with
  | _ n ih =>
    by_cases h : n < b
    · rw [Nat.toDigits_of_lt_base h]
      simp [readDigits, digitOfSymbol_digitChar b n hb h]
    · rw [Nat.toDigits_of_base_le h1 (by omega), readDigits_append, ih _ (Nat.div_lt_self (by omega) h1)]
      simp only [Option.bind_some, readDigits, digitOfSymbol_digitChar b _ hb (Nat.mod_lt n (by omega)), Nat.div_add_mod]

/-- The fixed hexadecimal digits that `hexText` writes read as the number, when it fits them. -/
theorem readDigits_hexDigits (digits n : Nat) :
    readDigits 16 ((List.range digits).reverse.map fun k => digitSymbol (n / 16 ^ k % 16)) 0 = some (n % 16 ^ digits) := by
  have h : ∀ (k : Nat) (m : Nat),
      readDigits 16 ((List.range k).reverse.map fun j => digitSymbol (n / 16 ^ j % 16)) m = some (16 ^ k * m + n % 16 ^ k) := by
    intro k
    induction k with
    | zero => intro m; simp [readDigits, Nat.mod_one]
    | succ k ih =>
      intro m
      have hd := digitOfSymbol_digitSymbol 16 (n / 16 ^ k % 16) (Nat.le_refl _) (Nat.mod_lt _ (by omega))
      simp only [List.range_succ, List.reverse_append, List.reverse_singleton, List.singleton_append, List.map_cons, readDigits,
        hd, Option.bind_some, ih, Nat.pow_succ, Nat.mod_mul]
      congr 1
      ring
  simpa using h digits 0

/-- A decimal number reads as the number: it starts neither like a quoted character nor like a hexadecimal one. -/
theorem readNumber_toDigits (n : Nat) : readNumber (Nat.toDigits 10 n) = some n := by
  have h := readDigits_toDigits 10 n (by decide) (by decide)
  unfold readNumber
  split
  · rename_i e; rw [e] at h; simp [readDigits, show digitOfSymbol 10 '\'' = none by decide] at h
  · rename_i e
    rw [e] at h
    simp [readDigits, show digitOfSymbol 10 '0' = some 0 by decide, show digitOfSymbol 10 'x' = none by decide] at h
  · rename_i e; rw [e] at h; exact h
  · rename_i e; exact absurd e Nat.toDigits_ne_nil

/-- A hexadecimal number reads as its digits do, when there is one. -/
theorem readNumber_hex (cs : List Char) (h : cs ≠ []) : readNumber ('0' :: 'x' :: cs) = readDigits 16 cs 0 := by
  obtain ⟨c, cs, rfl⟩ := List.exists_cons_of_ne_nil h
  rfl

end Sys2Proof.Machine
end

