-- ==== Sys2Proof/Laws/Words.lean ====
section
/-! SUPPORT. Bits of a word: setting one, building a word from its bits, the exclusive-or of a list, and reading the stream
form back. -/

namespace Sys2Proof.Machine

theorem allSlots_eq : allSlots = [0, 1, 2, 3, 4, 5, 6, 7, 8, 9, 10, 11, 12, 13, 14, 15] := by decide

/-- Two words with the same sixteen bits are equal. -/
theorem word_ext (a b : Word) (h : ∀ i < 16, a.getLsbD i = b.getLsbD i) : a = b :=
  BitVec.eq_of_getLsbD_eq (by simpa using h)

theorem getLsbD_oneHot (i j : Nat) (hi : i < 16) : (1#16 <<< i).getLsbD j = decide (j = i) := by
  by_cases hj : j = i
  · subst hj; simp [hi]
  · simp only [BitVec.getLsbD_shiftLeft, BitVec.getLsbD_one]
    by_cases h : j < i
    · simp [h, hj]
    · have : ¬ (j - i = 0) := by omega
      simp [this, hj]

theorem getLsbD_setBit (w : Word) (i j : Nat) (b : Bool) (hi : i < 16) :
    (setBit w i b).getLsbD j = if j = i then b else w.getLsbD j := by
  unfold setBit
  by_cases hj : j = i
  · subst hj; cases b <;> simp [hi]
  · cases b <;> simp [getLsbD_oneHot _ _ hi, hj]
    intro h; exact BitVec.lt_of_getLsbD h

@[simp] theorem getElem_setBit (w : Word) (i j : Nat) (b : Bool) (hi : i < 16) (hj : j < 16) :
    (setBit w i b)[j] = if j = i then b else w[j] := by
  simpa [← BitVec.getLsbD_eq_getElem] using getLsbD_setBit w i j b hi

theorem getLsbD_flipBit (w : Word) (i j : Nat) (hi : i < 16) :
    (flipBit w i).getLsbD j = xor (w.getLsbD j) (decide (j = i)) := by
  unfold flipBit
  rw [BitVec.getLsbD_xor, getLsbD_oneHot _ _ hi]

theorem getLsbD_wordOfBits (f : Nat → Bool) (i : Nat) (hi : i < 16) : (wordOfBits f).getLsbD i = f i := by
  unfold wordOfBits
  simp only [allSlots_eq, List.foldl_cons, List.foldl_nil]
  interval_cases i <;> simp

theorem foldl_xor_start (S : List Bool) (b : Bool) : S.foldl xor b = xor b (S.foldl xor false) := by
  induction S generalizing b with
  | nil => simp
  | cons x xs ih => rw [List.foldl_cons, List.foldl_cons, ih, ih (xor false x)]; simp

@[simp] theorem parity_nil : parity [] = false := rfl

@[simp] theorem parity_cons (b : Bool) (S : List Bool) : parity (b :: S) = xor b (parity S) := by
  unfold parity
  rw [List.foldl_cons, foldl_xor_start]
  simp

/-- The parity of fixed slots is linear. -/
theorem parity_bitsAt_xor (v w : Word) (l : List Nat) :
    parity (bitsAt (v ^^^ w) l) = xor (parity (bitsAt v l)) (parity (bitsAt w l)) := by
  unfold bitsAt
  induction l with
  | nil => rfl
  | cons i is ih =>
    simp only [List.map_cons, parity_cons, ih, BitVec.getLsbD_xor, Bool.xor_assoc, Bool.xor_left_comm]

@[simp] theorem streamOfWord_length (w : Word) : (streamOfWord w).length = 16 := by
  simp [streamOfWord, bitsAt, allSlots]

theorem getD_streamOfWord (w : Word) (S : List Bool) (i : Nat) (hi : i < 16) :
    (streamOfWord w ++ S).getD i false = w.getLsbD i := by
  have h : i < (streamOfWord w).length := by simpa using hi
  rw [List.getD_eq_getElem?_getD, List.getElem?_append_left h, List.getElem?_eq_getElem h, Option.getD_some]
  simp [streamOfWord, bitsAt, allSlots]

theorem getLsbD_chunk (S : List Bool) (k i : Nat) (hi : i < 16) :
    (chunk S k).getLsbD i = S.getD (16 * k + i) false := getLsbD_wordOfBits _ _ hi

/-- The first chunk of a stream that starts with a codeword is that codeword. -/
theorem chunk_zero_append (w : Word) (S : List Bool) : chunk (streamOfWord w ++ S) 0 = w := by
  apply word_ext
  intro i hi
  rw [getLsbD_chunk _ _ _ hi, Nat.mul_zero, Nat.zero_add, getD_streamOfWord _ _ _ hi]

/-- Sixteen bits further on is one chunk further on. -/
theorem chunk_succ_append (w : Word) (S : List Bool) (k : Nat) : chunk (streamOfWord w ++ S) (k + 1) = chunk S k := by
  apply word_ext
  intro i hi
  rw [getLsbD_chunk _ _ _ hi, getLsbD_chunk _ _ _ hi]
  have h : ¬ (16 * (k + 1) + i < 16) := by omega
  have e : 16 * (k + 1) + i - 16 = 16 * k + i := by omega
  simp [List.getD_eq_getElem?_getD, List.getElem?_append, h, e]

end Sys2Proof.Machine
end

