-- ==== Sys2Proof/Laws/Codec.lean ====
section
/-! SUPPORT. What each unit of the codec does, bit by bit: placement, parity generator, syndrome, overall parity, extraction;
and that each is linear. -/

namespace Sys2Proof.Machine

/-- Placement, bit by bit (R82). -/
theorem getLsbD_placeData (d : DataBits) (i : Nat) (hi : i < 16) :
    (placeData d).getLsbD i = (DPOS.contains i && dataBit d (DPOS.idxOf i)) := by
  have h : List.range 11 = [0, 1, 2, 3, 4, 5, 6, 7, 8, 9, 10] := by decide
  unfold placeData
  simp only [h, List.foldl_cons, List.foldl_nil]
  interval_cases i <;> simp [DPOS, List.idxOf, List.findIdx, List.findIdx.go]

/-- The word with its group parities, bit by bit (R83). -/
theorem getLsbD_withGroupParities (w : Word) (i : Nat) :
    (withGroupParities w).getLsbD i =
      if i = 1 then parity (bitsAt w G1)
      else if i = 2 then parity (bitsAt w G2)
      else if i = 4 then parity (bitsAt w G4)
      else if i = 8 then parity (bitsAt w G8)
      else w.getLsbD i := by
  unfold withGroupParities
  rw [getLsbD_setBit _ _ _ _ (by decide), getLsbD_setBit _ _ _ _ (by decide), getLsbD_setBit _ _ _ _ (by decide),
    getLsbD_setBit _ _ _ _ (by decide)]
  split_ifs <;> simp_all

/-- The parity generator, bit by bit (R90). -/
theorem getLsbD_generateParity (w : Word) (i : Nat) :
    (generateParity w).getLsbD i =
      if i = 0 then parity (bitsAt (withGroupParities w) (List.range' 1 15))
      else (withGroupParities w).getLsbD i := by
  unfold generateParity withOverallParity
  rw [getLsbD_setBit _ _ _ _ (by decide)]

theorem getLsbD_foldIndices (w : Word) (k : Nat) (hk : k < 4) (l : List Nat) (s : Syndrome) :
    ((l.filter fun i => w.getLsbD i).foldl (fun s i => s ^^^ BitVec.ofNat 4 i) s).getLsbD k =
      xor (s.getLsbD k) (parity (bitsAt w (l.filter fun i => i.testBit k))) := by
  induction l generalizing s with
  | nil => simp [bitsAt]
  | cons i is ih =>
    have hb : (BitVec.ofNat 4 i).getLsbD k = i.testBit k := by simp only [BitVec.getLsbD_ofNat, hk, decide_true, Bool.true_and]
    cases h : w.getLsbD i <;> cases hi : i.testBit k <;> simp [h, hi, ih, bitsAt, hb]

/-- Bit `k` of the syndrome is the parity of the slots whose index has bit `k` set (R110). -/
theorem getLsbD_syndrome (w : Word) (k : Nat) (hk : k < 4) :
    (syndrome w).getLsbD k = parity (bitsAt w (allSlots.filter fun i => i.testBit k)) := by
  unfold syndrome indexForm
  rw [getLsbD_foldIndices w k hk]
  simp

/-- The syndrome is linear. -/
theorem syndrome_xor (v w : Word) : syndrome (v ^^^ w) = syndrome v ^^^ syndrome w := by
  apply BitVec.eq_of_getLsbD_eq
  intro k hk
  simp only [BitVec.getLsbD_xor, getLsbD_syndrome _ k hk, parity_bitsAt_xor]

/-- The overall parity is linear. -/
theorem overallParity_xor (v w : Word) : overallParity (v ^^^ w) = xor (overallParity v) (overallParity w) :=
  parity_bitsAt_xor v w allSlots

/-- Extraction, bit by bit (R115). -/
theorem getLsbD_extractData (y : Word) (b : Nat) (hb : b < 11) :
    (extractData y).getLsbD b = y.getLsbD (DPOS.getD (10 - b) 0) := by
  unfold extractData DPOS
  simp only [List.foldl_cons, List.foldl_nil]
  interval_cases b <;> simp [BitVec.getElem_shiftLeft, BitVec.getElem_setWidth]

/-- A group's parity is that of its slots: placement is linear, and so is the parity generator. -/
theorem generateParity_xor (v w : Word) : generateParity (v ^^^ w) = generateParity v ^^^ generateParity w := by
  have hg : withGroupParities (v ^^^ w) = withGroupParities v ^^^ withGroupParities w := by
    apply word_ext
    intro i _
    rw [BitVec.getLsbD_xor]
    simp only [getLsbD_withGroupParities, parity_bitsAt_xor, BitVec.getLsbD_xor]
    split_ifs <;> rfl
  apply word_ext
  intro i _
  rw [BitVec.getLsbD_xor]
  simp only [getLsbD_generateParity, hg, parity_bitsAt_xor, BitVec.getLsbD_xor]
  split_ifs <;> rfl

/-- Placement is linear. -/
theorem placeData_xor (a b : DataBits) : placeData (a ^^^ b) = placeData a ^^^ placeData b := by
  apply word_ext
  intro i hi
  rw [BitVec.getLsbD_xor, getLsbD_placeData _ _ hi, getLsbD_placeData _ _ hi, getLsbD_placeData _ _ hi]
  cases DPOS.contains i <;> simp [dataBit]

/-- Extraction is linear. -/
theorem extractData_xor (v w : Word) : extractData (v ^^^ w) = extractData v ^^^ extractData w := by
  apply BitVec.eq_of_getLsbD_eq
  intro b hb
  rw [BitVec.getLsbD_xor, getLsbD_extractData _ _ hb, getLsbD_extractData _ _ hb, getLsbD_extractData _ _ hb,
    BitVec.getLsbD_xor]

end Sys2Proof.Machine
end

