-- ==== Sys2Proof/Laws/Decode.lean ====
section
/-! SUPPORT. The fields of a command word, the rows that can select it, and the decoder by fields. -/

namespace Sys2Proof

/-- A bit of a command word built from its fields. -/
theorem getLsbD_commandWord (op rsv : BitVec 3) (len : BitVec 5) (arg : BitVec 21) (i : Nat) (hi : i < 32) :
    (commandWord op rsv len arg).getLsbD i =
      if i < 21 then arg.getLsbD i else if i < 26 then len.getLsbD (i - 21)
      else if i < 29 then rsv.getLsbD (i - 26) else op.getLsbD (i - 29) := by
  unfold commandWord
  interval_cases i <;> simp [BitVec.getLsbD_of_ge]

theorem op_commandWord (op rsv : BitVec 3) (len : BitVec 5) (arg : BitVec 21) :
    Cmd.op (commandWord op rsv len arg) = op := by
  apply BitVec.eq_of_getLsbD_eq
  intro i hi
  simp only [Cmd.op, BitVec.getLsbD_extractLsb', hi, decide_true, Bool.true_and]
  rw [getLsbD_commandWord _ _ _ _ _ (by omega)]
  interval_cases i <;> rfl

theorem rsv_commandWord (op rsv : BitVec 3) (len : BitVec 5) (arg : BitVec 21) :
    Cmd.rsv (commandWord op rsv len arg) = rsv := by
  apply BitVec.eq_of_getLsbD_eq
  intro i hi
  simp only [Cmd.rsv, BitVec.getLsbD_extractLsb', hi, decide_true, Bool.true_and]
  rw [getLsbD_commandWord _ _ _ _ _ (by omega)]
  interval_cases i <;> rfl

theorem len_commandWord (op rsv : BitVec 3) (len : BitVec 5) (arg : BitVec 21) :
    Cmd.len (commandWord op rsv len arg) = len := by
  apply BitVec.eq_of_getLsbD_eq
  intro i hi
  simp only [Cmd.len, BitVec.getLsbD_extractLsb', hi, decide_true, Bool.true_and]
  rw [getLsbD_commandWord _ _ _ _ _ (by omega)]
  interval_cases i <;> rfl

theorem arg_commandWord (op rsv : BitVec 3) (len : BitVec 5) (arg : BitVec 21) :
    Cmd.arg (commandWord op rsv len arg) = arg := by
  apply BitVec.eq_of_getLsbD_eq
  intro i hi
  simp only [Cmd.arg, BitVec.getLsbD_extractLsb', hi, decide_true, Bool.true_and]
  rw [getLsbD_commandWord _ _ _ _ _ (by omega)]
  simp [hi]

/-- The word operand is the low part of `arg`. -/
theorem word_eq_arg (c : Cmd) : Cmd.word c = (Cmd.arg c).setWidth 16 := by
  apply BitVec.eq_of_getLsbD_eq
  intro i hi
  simp only [Cmd.word, Cmd.arg, BitVec.getLsbD_extractLsb', BitVec.getLsbD_setWidth, hi, decide_true, Bool.true_and]
  simp [show i < 21 by omega]

/-- The part of `arg` above a word operand. -/
theorem argHigh_eq_arg (c : Cmd) : Cmd.argHigh c = (Cmd.arg c).extractLsb' 16 5 := by
  apply BitVec.eq_of_getLsbD_eq
  intro i hi
  simp only [Cmd.argHigh, Cmd.arg, BitVec.getLsbD_extractLsb', hi, decide_true, Bool.true_and]
  simp [show 16 + i < 21 by omega]

/-- A command word is its four fields. -/
theorem commandWord_fields (c : Cmd) : commandWord (Cmd.op c) (Cmd.rsv c) (Cmd.len c) (Cmd.arg c) = c := by
  apply BitVec.eq_of_getLsbD_eq
  intro i hi
  rw [getLsbD_commandWord _ _ _ _ _ hi]
  simp only [Cmd.op, Cmd.rsv, Cmd.len, Cmd.arg, BitVec.getLsbD_extractLsb']
  split_ifs with h1 h2 h3
  · simp [h1]
  · rw [show 21 + (i - 21) = i by omega, decide_eq_true (show i - 21 < 5 by omega), Bool.true_and]
  · rw [show 26 + (i - 26) = i by omega, decide_eq_true (show i - 26 < 3 by omega), Bool.true_and]
  · rw [show 29 + (i - 29) = i by omega, decide_eq_true (show i - 29 < 3 by omega), Bool.true_and]

/-- A mask acts on each field by itself. -/
theorem commandWord_and (o o' r r' : BitVec 3) (l l' : BitVec 5) (a a' : BitVec 21) :
    commandWord o r l a &&& commandWord o' r' l' a' = commandWord (o &&& o') (r &&& r') (l &&& l') (a &&& a') := by
  apply BitVec.eq_of_getLsbD_eq
  intro i hi
  simp only [BitVec.getLsbD_and, getLsbD_commandWord _ _ _ _ i hi]
  split_ifs <;> rfl

/-- Two command words are equal when their fields are. -/
theorem commandWord_inj (o o' r r' : BitVec 3) (l l' : BitVec 5) (a a' : BitVec 21) :
    commandWord o r l a = commandWord o' r' l' a' ↔ o = o' ∧ r = r' ∧ l = l' ∧ a = a' := by
  constructor
  · intro h
    exact ⟨by simpa only [op_commandWord] using congrArg Cmd.op h, by simpa only [rsv_commandWord] using congrArg Cmd.rsv h,
      by simpa only [len_commandWord] using congrArg Cmd.len h, by simpa only [arg_commandWord] using congrArg Cmd.arg h⟩
  · rintro ⟨rfl, rfl, rfl, rfl⟩; rfl

/-- A masked word equals an operation number with zeros, field by field. -/
theorem and_fields_eq (c : Cmd) (m1 m2 : BitVec 3) (m3 : BitVec 5) (m4 : BitVec 21) (o : BitVec 3) :
    c &&& commandWord m1 m2 m3 m4 = commandWord o 0 0 0 ↔
      Cmd.op c &&& m1 = o ∧ Cmd.rsv c &&& m2 = 0 ∧ Cmd.len c &&& m3 = 0 ∧ Cmd.arg c &&& m4 = 0 := by
  conv_lhs => rw [← commandWord_fields c]
  rw [commandWord_and, commandWord_inj]

/-- The mask of `arg[20:16]`. -/
theorem arg_and_high (a : BitVec 21) : a &&& 0x1F0000#21 = 0 ↔ a.extractLsb' 16 5 = 0 := by
  constructor
  · intro h
    apply BitVec.eq_of_getLsbD_eq
    intro i hi
    have := congrArg (fun v => BitVec.getLsbD v (16 + i)) h
    interval_cases i <;> simpa using this
  · intro h
    apply BitVec.eq_of_getLsbD_eq
    intro i hi
    by_cases hl : i < 16
    · interval_cases i <;> simp
    · have := congrArg (fun v => BitVec.getLsbD v (i - 16)) h
      interval_cases i <;> simpa using this

/-- The mask of ENC and PACK fixes `op`, `rsv` and `len` (R66). -/
theorem selects_codePoint_row (c : Cmd) (o : BitVec 3) :
    c &&& 0xFFE00000#32 = commandWord o 0 0 0 ↔ Cmd.op c = o ∧ Cmd.rsv c = 0 ∧ Cmd.len c = 0 := by
  rw [show 0xFFE00000#32 = commandWord (BitVec.allOnes 3) (BitVec.allOnes 3) (BitVec.allOnes 5) 0 by decide, and_fields_eq]
  simp only [BitVec.and_allOnes]
  simp

/-- The mask of PGEN, SYND, CORR and UNPK fixes `op`, `rsv`, `len` and `arg[20:16]` (R66). -/
theorem selects_word_row (c : Cmd) (o : BitVec 3) :
    c &&& 0xFFFF0000#32 = commandWord o 0 0 0 ↔ Cmd.op c = o ∧ Cmd.rsv c = 0 ∧ Cmd.len c = 0 ∧ Cmd.argHigh c = 0 := by
  rw [show 0xFFFF0000#32 = commandWord (BitVec.allOnes 3) (BitVec.allOnes 3) (BitVec.allOnes 5) 0x1F0000#21 by decide,
    and_fields_eq, arg_and_high, ← argHigh_eq_arg]
  simp only [BitVec.and_allOnes]

/-- The mask of DEC fixes `op`, `rsv` and `arg[20:16]` (R66). -/
theorem selects_chunk_row (c : Cmd) (o : BitVec 3) :
    c &&& 0xFC1F0000#32 = commandWord o 0 0 0 ↔ Cmd.op c = o ∧ Cmd.rsv c = 0 ∧ Cmd.argHigh c = 0 := by
  rw [show 0xFC1F0000#32 = commandWord (BitVec.allOnes 3) (BitVec.allOnes 3) 0 0x1F0000#21 by decide,
    and_fields_eq, arg_and_high, ← argHigh_eq_arg]
  simp only [BitVec.and_allOnes]
  simp

/-- The mask of CLRF fixes every field (R66). -/
theorem selects_exact_row (c : Cmd) (o : BitVec 3) :
    c &&& 0xFFFFFFFF#32 = commandWord o 0 0 0 ↔ Cmd.op c = o ∧ Cmd.rsv c = 0 ∧ Cmd.len c = 0 ∧ Cmd.arg c = 0 := by
  rw [show 0xFFFFFFFF#32 = commandWord (BitVec.allOnes 3) (BitVec.allOnes 3) (BitVec.allOnes 5) (BitVec.allOnes 21) by decide,
    and_fields_eq]
  simp only [BitVec.and_allOnes]

/-- Which rows select a word, by its fields, in the table's order. -/
theorem rows_by_fields (c : Cmd) :
    opcodeTable.map (·.selects c) =
      [ decide (Cmd.op c = 0 ∧ Cmd.rsv c = 0 ∧ Cmd.len c = 0), decide (Cmd.op c = 1 ∧ Cmd.rsv c = 0 ∧ Cmd.argHigh c = 0),
        decide (Cmd.op c = 2 ∧ Cmd.rsv c = 0 ∧ Cmd.len c = 0),
        decide (Cmd.op c = 3 ∧ Cmd.rsv c = 0 ∧ Cmd.len c = 0 ∧ Cmd.argHigh c = 0),
        decide (Cmd.op c = 4 ∧ Cmd.rsv c = 0 ∧ Cmd.len c = 0 ∧ Cmd.argHigh c = 0),
        decide (Cmd.op c = 5 ∧ Cmd.rsv c = 0 ∧ Cmd.len c = 0 ∧ Cmd.argHigh c = 0),
        decide (Cmd.op c = 6 ∧ Cmd.rsv c = 0 ∧ Cmd.len c = 0 ∧ Cmd.argHigh c = 0),
        decide (Cmd.op c = 7 ∧ Cmd.rsv c = 0 ∧ Cmd.len c = 0 ∧ Cmd.arg c = 0) ] := by
  simp only [opcodeTable, List.map_cons, List.map_nil, OpcodeRow.selects,
    ← selects_codePoint_row, ← selects_word_row, ← selects_chunk_row, ← selects_exact_row]
  rfl

/-- The decoder by fields: what each word means, said once. -/
theorem decode_by_fields (c : Cmd) :
    decode c =
      if Cmd.op c = 0 ∧ Cmd.rsv c = 0 ∧ Cmd.len c = 0 then .ok (.enc (Cmd.codePoint c))
      else if Cmd.op c = 1 ∧ Cmd.rsv c = 0 ∧ Cmd.argHigh c = 0 then .ok (.dec (Cmd.word c) (Cmd.chunkLength c))
      else if Cmd.op c = 2 ∧ Cmd.rsv c = 0 ∧ Cmd.len c = 0 then .ok (.pack (Cmd.codePoint c))
      else if Cmd.op c = 3 ∧ Cmd.rsv c = 0 ∧ Cmd.len c = 0 ∧ Cmd.argHigh c = 0 then .ok (.pgen (Cmd.word c))
      else if Cmd.op c = 4 ∧ Cmd.rsv c = 0 ∧ Cmd.len c = 0 ∧ Cmd.argHigh c = 0 then .ok (.synd (Cmd.word c))
      else if Cmd.op c = 5 ∧ Cmd.rsv c = 0 ∧ Cmd.len c = 0 ∧ Cmd.argHigh c = 0 then .ok (.corr (Cmd.word c))
      else if Cmd.op c = 6 ∧ Cmd.rsv c = 0 ∧ Cmd.len c = 0 ∧ Cmd.argHigh c = 0 then .ok (.unpk (Cmd.word c))
      else if Cmd.op c = 7 ∧ Cmd.rsv c = 0 ∧ Cmd.len c = 0 ∧ Cmd.arg c = 0 then .ok .clrf
      else .error (illegalReason c) := by
  have h := rows_by_fields c
  simp only [opcodeTable, List.map_cons, List.map_nil, List.cons.injEq, and_true] at h
  obtain ⟨h0, h1, h2, h3, h4, h5, h6, h7⟩ := h
  unfold decode opcodeTable
  simp only [List.find?_cons, List.find?_nil, h0, h1, h2, h3, h4, h5, h6, h7]
  split_ifs <;> simp (disch := assumption) only [decide_eq_true, decide_eq_false]

/-- The decoder's answer comes from the first row that selects the word. -/
theorem decode_ok (c : Cmd) (i : Instr) (h : decode c = .ok i) :
    ∃ r ∈ opcodeTable, r.selects c = true ∧ i = r.read c := by
  unfold decode at h
  split at h
  · rename_i r hr
    exact ⟨r, List.mem_of_find?_eq_some hr, by simpa using List.find?_some hr, by cases h; rfl⟩
  · cases h

/-- A word is rejected when no row selects it. -/
theorem decode_error (c : Cmd) (e : IllegalWord) (h : decode c = .error e) : ∀ r ∈ opcodeTable, r.selects c = false := by
  unfold decode at h
  split at h
  · cases h
  · rename_i hn
    simpa using List.find?_eq_none.mp hn

/-- The word of CLRF decodes to CLRF. -/
theorem decode_clrfWord : decode clrfWord = .ok .clrf := by decide

end Sys2Proof
end

