-- ==== Sys2Proof/Laws/State.lean ====
section
/-! SUPPORT. One lemma per field per update of the state, so that no proof unfolds a record update. -/

namespace Sys2Proof.Machine

variable (s : State) (w : Word) (d : DataBits) (c : FaultCause)

@[simp] theorem writeRes_regs : (writeRes w s).regs = { s.regs with res := w } := rfl
@[simp] theorem writeRes_inbox : (writeRes w s).inbox = s.inbox := rfl
@[simp] theorem writeRes_resetSeen : (writeRes w s).resetSeen = s.resetSeen := rfl

@[simp] theorem writeSynPar_regs :
    (writeSynPar w s).regs = { s.regs with syn := syndrome w, par := overallParity w } := rfl
@[simp] theorem writeSynPar_inbox : (writeSynPar w s).inbox = s.inbox := rfl
@[simp] theorem writeSynPar_resetSeen : (writeSynPar w s).resetSeen = s.resetSeen := rfl

@[simp] theorem writeCor_regs :
    (writeCor w s).regs = { s.regs with cor := correctionNeeded (syndrome w) (overallParity w) } := rfl
@[simp] theorem writeCor_inbox : (writeCor w s).inbox = s.inbox := rfl
@[simp] theorem writeCor_resetSeen : (writeCor w s).resetSeen = s.resetSeen := rfl

@[simp] theorem writeDatChr_regs : (writeDatChr d s).regs = { s.regs with dat := d, chr := charOfData d } := rfl
@[simp] theorem writeDatChr_inbox : (writeDatChr d s).inbox = s.inbox := rfl
@[simp] theorem writeDatChr_resetSeen : (writeDatChr d s).resetSeen = s.resetSeen := rfl

@[simp] theorem raiseFault_regs : (raiseFault c s).regs = { s.regs with flt := c } := rfl
@[simp] theorem raiseFault_inbox : (raiseFault c s).inbox = s.inbox := rfl
@[simp] theorem raiseFault_resetSeen : (raiseFault c s).resetSeen = s.resetSeen := rfl

@[simp] theorem clearFault_regs : (clearFault s).regs = { s.regs with flt := .none } := rfl
@[simp] theorem clearFault_inbox : (clearFault s).inbox = s.inbox := rfl
@[simp] theorem clearFault_resetSeen : (clearFault s).resetSeen = s.resetSeen := rfl

/-- The character register takes the low byte of the data bits (R116). -/
theorem charOfData_eq_extractLsb : charOfData d = d.extractLsb' 0 8 := by
  apply BitVec.eq_of_getLsbD_eq
  intro i hi
  simp [charOfData, hi]

/-- All that `unlessFaulted` can do: the effect when no fault is recorded, nothing when one is (R167). -/
theorem unlessFaulted_next (effect : State → State) :
    unlessFaulted effect s = .next (if s.regs.flt = .none then effect s else s) := by
  unfold unlessFaulted
  split <;> rfl

@[simp] theorem unlessFaulted_of_none (effect : State → State) (h : s.regs.flt = .none) :
    unlessFaulted effect s = .next (effect s) := by simp [unlessFaulted, h]

@[simp] theorem unlessFaulted_of_fault (effect : State → State) (h : s.regs.flt ≠ .none) :
    unlessFaulted effect s = .next s := by simp [unlessFaulted, h]

end Sys2Proof.Machine
end

