-- ==== Sys2Proof/Laws/Step.lean ====
section
/-! SUPPORT. What one command, one edge and one step can do, said once. -/

namespace Sys2Proof.Machine

variable (s : State)

@[simp] theorem nextEdge_presentEdge (e : Edge) : nextEdge (presentEdge e s) = e := rfl
@[simp] theorem dropEdge_presentEdge (e : Edge) : dropEdge (presentEdge e s) = s := rfl
@[simp] theorem dropEdge_regs : (dropEdge s).regs = s.regs := rfl
@[simp] theorem dropEdge_resetSeen : (dropEdge s).resetSeen = s.resetSeen := rfl
@[simp] theorem resetEdge_regs : (resetEdge s).regs = Regs.reset := rfl
@[simp] theorem resetEdge_inbox : (resetEdge s).inbox = s.inbox := rfl
@[simp] theorem resetEdge_resetSeen : (resetEdge s).resetSeen = true := rfl

/-- The step after an edge is presented is what that edge does. -/
theorem step_presentEdge (e : Edge) : step (presentEdge e s) = sampleEdge e s := rfl

theorem unlessFaulted_regs (effect : State → State) (h : ∃ r, effect s = { s with regs := r }) :
    ∃ r, unlessFaulted effect s = .next { s with regs := r } := by
  rw [unlessFaulted_next]
  split
  · obtain ⟨r, hr⟩ := h; exact ⟨r, by rw [hr]⟩
  · exact ⟨s.regs, rfl⟩

/-- Every command answers a next state that differs in the registers alone. -/
theorem exec_next (i : Instr) : ∃ r, exec i s = .next { s with regs := r } := by
  cases i with
  | enc cp =>
    change ∃ r, execEnc cp s = _
    unfold execEnc
    refine unlessFaulted_regs s _ ?_
    split <;> exact ⟨_, rfl⟩
  | dec w len =>
    change ∃ r, execDec w len s = _
    unfold execDec
    refine unlessFaulted_regs s _ ?_
    split <;> exact ⟨_, rfl⟩
  | pack cp =>
    change ∃ r, execPack cp s = _
    unfold execPack
    refine unlessFaulted_regs s _ ?_
    split <;> exact ⟨_, rfl⟩
  | pgen w =>
    change ∃ r, execPgen w s = _
    unfold execPgen
    exact unlessFaulted_regs s _ ⟨_, rfl⟩
  | synd w =>
    change ∃ r, execSynd w s = _
    unfold execSynd
    exact unlessFaulted_regs s _ ⟨_, rfl⟩
  | corr w =>
    change ∃ r, execCorr w s = _
    unfold execCorr
    exact unlessFaulted_regs s _ ⟨_, rfl⟩
  | unpk w =>
    change ∃ r, execUnpk w s = _
    unfold execUnpk
    exact unlessFaulted_regs s _ ⟨_, rfl⟩
  | clrf => exact ⟨_, rfl⟩

/-- All that a command word can do to a block that has been reset (R195): refused, recorded as illegal, or executed. -/
theorem runCommand_cases (c : Cmd) :
    (s.regs.flt ≠ .none ∧ c ≠ clrfWord ∧ runCommand c s = .next s) ∨
    ((s.regs.flt = .none ∨ c = clrfWord) ∧ (∃ e, decode c = .error e) ∧ runCommand c s = .next (raiseFault .illc s)) ∨
    ((s.regs.flt = .none ∨ c = clrfWord) ∧ ∃ i, decode c = .ok i ∧ runCommand c s = exec i s) := by
  unfold runCommand
  split
  · rename_i h
    exact .inl ⟨h.1, h.2, rfl⟩
  · rename_i h
    have h' : s.regs.flt = .none ∨ c = clrfWord := by
      by_cases hf : s.regs.flt = .none
      · exact .inl hf
      · exact .inr (by by_contra hc; exact h ⟨hf, hc⟩)
    cases hd : decode c with
    | error e => exact .inr (.inl ⟨h', ⟨e, rfl⟩, rfl⟩)
    | ok i => exact .inr (.inr ⟨h', i, rfl, rfl⟩)

/-- All that one edge can do (R195). -/
theorem sampleEdge_cases (e : Edge) :
    (e.rst = true ∧ sampleEdge e s = .next (resetEdge s)) ∨
    (e.rst = false ∧ e.cmdValid = false ∧ sampleEdge e s = .next s) ∨
    (e.rst = false ∧ e.cmdValid = true ∧ s.resetSeen = false ∧ sampleEdge e s = .fault .commandBeforeReset) ∨
    (e.rst = false ∧ e.cmdValid = true ∧ s.resetSeen = true ∧ sampleEdge e s = runCommand e.cmd s) := by
  unfold sampleEdge
  cases e.rst <;> cases e.cmdValid <;> cases s.resetSeen <;> simp

/-- A command presented after a reset runs as R195 says. -/
theorem step_command (c : Cmd) (h : s.resetSeen = true) : step (presentEdge (Edge.command c) s) = runCommand c s := by
  simp [step_presentEdge, sampleEdge, Edge.command, h]

end Sys2Proof.Machine
end

