-- ==== Sys2Proof/Laws/Exec.lean ====
section
/-! SUPPORT. The next state of every command, one equation each, which proofs cite instead of unfolding a meaning; and what a
step that answers a next state can have done. -/

namespace Sys2Proof.Machine

variable (s : State)

theorem codePointTooLarge_iff (cp : Nat) : codePointTooLarge cp = true ↔ 2048 ≤ cp :=
  decide_eq_true_iff

theorem chunkLengthWrong_iff (len : Nat) : chunkLengthWrong len = true ↔ len ≠ 16 := by
  simp [chunkLengthWrong, Config.codewordBits]

theorem exec_enc (cp : Nat) :
    exec (.enc cp) s = .next (if s.regs.flt = .none then
      (if 2048 ≤ cp then raiseFault .cptl s else writeRes (encodeData (BitVec.ofNat 11 cp)) s) else s) := by
  simp only [exec, execEnc, unlessFaulted_next, codePointTooLarge_iff, dataOfCodePoint]

theorem exec_pack (cp : Nat) :
    exec (.pack cp) s = .next (if s.regs.flt = .none then
      (if 2048 ≤ cp then raiseFault .cptl s else writeRes (placeData (BitVec.ofNat 11 cp)) s) else s) := by
  simp only [exec, execPack, unlessFaulted_next, codePointTooLarge_iff, dataOfCodePoint]

theorem exec_pgen (w : Word) :
    exec (.pgen w) s = .next (if s.regs.flt = .none then writeRes (generateParity w) s else s) := by
  simp only [exec, execPgen, unlessFaulted_next]

theorem exec_synd (w : Word) :
    exec (.synd w) s = .next (if s.regs.flt = .none then writeSynPar w s else s) := by
  simp only [exec, execSynd, unlessFaulted_next]

theorem exec_corr (w : Word) :
    exec (.corr w) s = .next (if s.regs.flt = .none then writeRes (correctWord w) (writeCor w (writeSynPar w s)) else s) := by
  simp only [exec, execCorr, unlessFaulted_next]

theorem exec_unpk (w : Word) :
    exec (.unpk w) s = .next (if s.regs.flt = .none then writeDatChr (extractData w) s else s) := by
  simp only [exec, execUnpk, unlessFaulted_next]

theorem exec_dec (w : Word) (len : Nat) :
    exec (.dec w len) s = .next (if s.regs.flt = .none then
      (if len ≠ 16 then raiseFault .malf s
       else writeDatChr (extractData (correctWord w)) (writeRes (correctWord w) (writeCor w (writeSynPar w s)))) else s) := by
  simp only [exec, execDec, unlessFaulted_next, chunkLengthWrong_iff]

theorem exec_clrf : exec .clrf s = .next (clearFault s) := rfl

/-- Every command but CLRF is refused while a fault is recorded (R167). -/
theorem exec_of_fault (i : Instr) (h : s.regs.flt ≠ .none) (hi : i ≠ .clrf) : exec i s = .next s := by
  cases i with
  | clrf => exact absurd rfl hi
  | enc cp => simp [exec_enc, h]
  | dec w len => simp [exec_dec, h]
  | pack cp => simp [exec_pack, h]
  | pgen w => simp [exec_pgen, h]
  | synd w => simp [exec_synd, h]
  | corr w => simp [exec_corr, h]
  | unpk w => simp [exec_unpk, h]

/-- Only the exact word of CLRF decodes to CLRF (R140). -/
theorem eq_clrfWord_of_decode (c : Cmd) (h : decode c = .ok .clrf) : c = clrfWord := by
  obtain ⟨r, hr, hs, he⟩ := decode_ok c _ h
  simp only [opcodeTable, List.mem_cons, List.not_mem_nil, or_false] at hr
  rcases hr with rfl | rfl | rfl | rfl | rfl | rfl | rfl | rfl <;> simp only [reduceCtorEq] at he
  have hm : (0xFFFFFFFF#32 : Cmd) = BitVec.allOnes 32 := by decide
  have h2 : c &&& 0xFFFFFFFF#32 = 0xE0000000#32 := eq_of_beq hs
  rw [hm, BitVec.and_allOnes] at h2
  exact h2

/-- A command word that decodes runs as its command, whether or not a fault is recorded. -/
theorem runCommand_of_decode (c : Cmd) (i : Instr) (h : decode c = .ok i) : runCommand c s = exec i s := by
  rcases runCommand_cases s c with ⟨hf, hc, hr⟩ | ⟨_, ⟨e, he⟩, _⟩ | ⟨_, j, hj, hr⟩
  · rw [hr, exec_of_fault s i hf]
    rintro rfl
    exact hc (eq_clrfWord_of_decode c h)
  · rw [h] at he; cases he
  · rw [h] at hj; cases hj; exact hr

/-- A command word always answers a next state that differs in the registers alone. -/
theorem runCommand_next (c : Cmd) : ∃ r, runCommand c s = .next { s with regs := r } := by
  rcases runCommand_cases s c with ⟨_, _, hr⟩ | ⟨_, _, hr⟩ | ⟨_, j, _, hr⟩
  · exact ⟨s.regs, hr⟩
  · exact ⟨_, hr⟩
  · rw [hr]; exact exec_next s j

/-- All that a step that answers a next state can have done: a reset, an idle edge, or a command. -/
theorem step_next_cases {s s' : State} (h : step s = .next s') :
    ((nextEdge s).rst = true ∧ s' = resetEdge (dropEdge s)) ∨
    ((nextEdge s).rst = false ∧ (nextEdge s).cmdValid = false ∧ s' = dropEdge s) ∨
    ((nextEdge s).rst = false ∧ (nextEdge s).cmdValid = true ∧ s.resetSeen = true ∧
      runCommand (nextEdge s).cmd (dropEdge s) = .next s') := by
  unfold step at h
  rcases sampleEdge_cases (dropEdge s) (nextEdge s) with ⟨a, b⟩ | ⟨a, b, c⟩ | ⟨_, _, _, d⟩ | ⟨a, b, c, d⟩
  · rw [b] at h; cases h; exact .inl ⟨a, rfl⟩
  · rw [c] at h; cases h; exact .inr (.inl ⟨a, b, rfl⟩)
  · rw [d] at h; cases h
  · rw [d] at h; exact .inr (.inr ⟨a, b, c, h⟩)

end Sys2Proof.Machine
end

