-- ==== Sys2Proof/Laws/PerInstr.lean ====
section
/-! SUPPORT. A fact about every command as syntax, one lemma per constructor: the fields of its word. -/

namespace Sys2Proof.Laws.EncodedFields

/-- The `op` field of the encoded command is its number in R61, `rsv` is 0, and `len` is 0 in every command but DEC (R60). -/
def Statement (i : Instr) : Prop :=
  Cmd.op (encode i) = i.opcode ∧ Cmd.rsv (encode i) = 0 ∧ Cmd.len (encode i) = i.lenField ∧ Cmd.arg (encode i) = i.argField

/-- The four field lemmas together. -/
theorem fields (i : Instr) : Statement i :=
  ⟨op_commandWord _ _ _ _, rsv_commandWord _ _ _ _, len_commandWord _ _ _ _, arg_commandWord _ _ _ _⟩

theorem enc (cp : Nat) : Statement (.enc cp) := fields _
theorem dec (w : Word) (len : Nat) : Statement (.dec w len) := fields _
theorem pack (cp : Nat) : Statement (.pack cp) := fields _
theorem pgen (w : Word) : Statement (.pgen w) := fields _
theorem synd (w : Word) : Statement (.synd w) := fields _
theorem corr (w : Word) : Statement (.corr w) := fields _
theorem unpk (w : Word) : Statement (.unpk w) := fields _
theorem clrf : Statement .clrf := fields _

end Sys2Proof.Laws.EncodedFields
end

