-- ==== Sys2Proof/Tests/Slice0.lean ====
section
/-! SUPPORT. Tests on fixed values, their expected results from the spec's worked examples (the rule is named in each comment),
and for every statement with hypotheses a witness that meets them. -/

namespace Sys2Proof.Tests

open Sys2Proof Sys2Proof.Machine Sys2Proof.Spec

/-- A block in use: every register holds something else, no fault, one idle edge still to come. -/
def busy : State :=
  { regs := { res := 0x1234, dat := 0x155, chr := 0x55, syn := 9, par := true, cor := false, flt := .none },
    inbox := [Edge.idle], resetSeen := true }

/-- The same with a fault recorded. -/
def broken : State := { busy with regs := { busy.regs with flt := .malf } }

/-- The state after, when there is one. -/
def after (o : Host.Outcome State Fault Refusal) : Option State :=
  match o with
  | .next s => some s
  | .fault _ => none
  | .refused _ => none

/-- `busy` with other registers. -/
def busyWith (r : Regs) : Option State := some { busy with regs := r }

/-- The rows of the opcode table that select a word, by name. -/
def selectedBy (c : Cmd) : List String := (opcodeTable.filter (·.selects c)).map (·.mnemonic)

/-- The result of a batch, when it ends. -/
def result {α : Type} (o : Host.Outcome (Batch α) Fault Refusal) : Option (BatchResult α) :=
  match o with
  | .next b => some b.result
  | .fault _ => none
  | .refused _ => none

theorem eq_of_after {o : Host.Outcome State Fault Refusal} {s : State} (h : after o = some s) : o = .next s := by
  cases o <;> simp_all [after]

/-! ## WellFormed: an ill-formed term for each check (R60, R62) -/

theorem test_wellFormed_refuses_wide_code_point :
    (Instr.enc 2097152).wellFormed = false ∧ (Instr.pack 2097152).wellFormed = false ∧
    (Instr.enc 2097151).wellFormed = true ∧ (Instr.pack 2097151).wellFormed = true := by decide

theorem test_wellFormed_refuses_wide_length :
    (Instr.dec 0xFFFF 32).wellFormed = false ∧ (Instr.dec 0xFFFF 31).wellFormed = true := by decide

/-! ## Decoding: each row by a word written out bit by bit from its pattern (R66), and the worked words of R73 -/

theorem test_decode_enc : decode 0b000_000_00000_000000000000001000001#32 = .ok (.enc 65) := by decide
theorem test_decode_dec : decode 0b001_000_10000_00000_1000001000010100#32 = .ok (.dec 0x8214 16) := by decide
theorem test_decode_pack : decode 0b010_000_00000_000000000000001000001#32 = .ok (.pack 65) := by decide
theorem test_decode_pgen : decode 0b011_000_00000_00000_1000001000000000#32 = .ok (.pgen 0x8200) := by decide
theorem test_decode_synd : decode 0b100_000_00000_00000_1000001000110100#32 = .ok (.synd 0x8234) := by decide
theorem test_decode_corr : decode 0b101_000_00000_00000_1000001000110100#32 = .ok (.corr 0x8234) := by decide
theorem test_decode_unpk : decode 0b110_000_00000_00000_1000001000010100#32 = .ok (.unpk 0x8214) := by decide
theorem test_decode_clrf : decode 0b111_000_00000_000000000000000000000#32 = .ok .clrf := by decide

theorem test_decode_widest_operands :
    decode 0x001FFFFF#32 = .ok (.enc 2097151) ∧ decode 0x23E0FFFF#32 = .ok (.dec 0xFFFF 31) ∧
    decode 0x20A00014#32 = .ok (.dec 0x0014 5) := by decide

/-- The illegal words of R73 and R68, each with its case. -/
theorem test_decode_illegal :
    decode 0x04000041#32 = .error .reservedBitsSet ∧ decode 0x00200041#32 = .error .lengthFieldUnused ∧
    decode 0x80018234#32 = .error .wordOperandTooWide ∧ decode 0xE0000001#32 = .error .clrfArgumentSet ∧
    decode 0xFFFFFFFF#32 = .error .reservedBitsSet := by decide

/-- The table's own numbering: a row of 32 bits is one value. -/
theorem test_decodeTableWord :
    decodeTableWord 32 0x22008214 = some (.dec 0x8214 16) ∧ decodeTableWord 32 0xE0000001 = none := by decide

theorem test_withFetchWord_runs_next :
    after (step (busy.withFetchWord 32 0x00000041)) = busyWith { busy.regs with res := 0x8214 } := by decide

/-! ## The commands (R88 to R90, R121 to R124, R140) -/

theorem test_enc_A : after (exec (.enc 65) busy) = busyWith { busy.regs with res := 0x8214 } := by decide
theorem test_enc_2048_faults : after (exec (.enc 2048) busy) = busyWith { busy.regs with flt := .cptl } := by decide

theorem test_pack_2047 : after (exec (.pack 2047) busy) = busyWith { busy.regs with res := 0xFEE8 } := by decide
theorem test_pack_2048_faults : after (exec (.pack 2048) busy) = busyWith { busy.regs with flt := .cptl } := by decide

theorem test_pgen_ABCD : after (exec (.pgen 0xABCD) busy) = busyWith { busy.regs with res := 0xAACC } := by decide
theorem test_pgen_refused : after (exec (.pgen 0xABCD) broken) = some broken := by decide

/-- `COR` is not written by SYND. -/
theorem test_synd_8000 : after (exec (.synd 0x8000) busy) = busyWith { busy.regs with syn := 15, par := true } := by decide

/-- The miscorrecting case: parity 0, flip all the same. -/
theorem test_corr_8212 : after (exec (.corr 0x8212) busy) =
    busyWith { busy.regs with syn := 3, par := false, cor := true, res := 0x821A } := by decide

theorem test_unpk_0068 : after (exec (.unpk 0x0068) busy) = busyWith { busy.regs with dat := 0x700, chr := 0x00 } := by decide

theorem test_dec_8234 : after (exec (.dec 0x8234 16) busy) =
    busyWith { res := 0x8214, dat := 0x041, chr := 0x41, syn := 5, par := true, cor := true, flt := .none } := by decide
theorem test_dec_short_faults : after (exec (.dec 0x0014 5) busy) = busyWith { busy.regs with flt := .malf } := by decide

theorem test_clrf : after (exec .clrf broken) = some busy := by decide

/-! ## The port (R33, R34, R167, R168) -/

/-- An ill-formed ENC with a large code point is ILLC, not CPTL (R168). -/
theorem test_order_of_checks :
    after (present 0x04001000#32 busy) = busyWith { busy.regs with flt := .illc } := by decide

/-- A refused illegal word leaves the first cause (R167). -/
theorem test_refused_illegal_word : after (present 0xE0000001#32 broken) = some broken := by decide

theorem test_reset_wins :
    after (step (presentEdge { rst := true, cmdValid := true, cmd := 0xFFFFFFFF } broken)) =
      some { busy with regs := Regs.reset } := by decide

/-! ## Streams, text forms and the channel (R8, R70, R102, R147) -/

/-- The stream of "A" is its string form (R8, R88). -/
theorem test_encs_A : result (encs [65] busy) = some (.complete
    [false, false, true, false, true, false, false, false, false, true, false, false, false, false, false, true]) := by
  decide

/-- Seventeen bits: one whole chunk and a tail (R147). -/
theorem test_decs_partial_chunk : result (decs (List.replicate 17 false) busy) = some (.failed .malformedStream) := by decide

/-- The bits flipped around an end of the stream are clipped, not wrapped (R102). -/
theorem test_noise_clips :
    injectNoise [false, false, false, false] [0] 1 = some [true, true, false, false] ∧
    injectNoise [false, false, false, false] [3] 2 = some [false, true, true, true] ∧
    injectNoise [] [0] 1 = none := by decide

/-- R70's examples. -/
theorem test_readCommand :
    readCommand ['E', 'N', 'C', ' ', '\'', 'A', '\''] = some (.enc 65) ∧
    readCommand ['D', 'E', 'C', ' ', '0', 'x', '8', '2', '1', '4', ',', ' ', '1', '6'] = some (.dec 0x8214 16) ∧
    readCommand ['D', 'E', 'C', ' ', '0', 'x', '8', '2', '1', '4'] = some (.dec 0x8214 16) := by decide

/-- The model's choice (log 18): a quoted character as a word, the comma among them. -/
theorem test_readCommand_quoted_word :
    readCommand ['P', 'G', 'E', 'N', ' ', '\'', 'A', '\''] = some (.pgen 0x0041) ∧
    readCommand ['D', 'E', 'C', ' ', '\'', ',', '\'', ',', ' ', '1', '6'] = some (.dec 0x002C 16) := by decide

theorem test_commandText : commandText (.dec 0x8214 16) = "DEC 0x8214, 16" := by decide

/-! ## Witnesses: states and operands that meet a statement's hypotheses, at the edges of each clause -/

theorem witness_ResetClearsEveryRegister :
    (Instr.enc 2097151).WellFormed ∧ (Instr.dec 0xFFFF 31).WellFormed ∧ (Instr.pack 0).WellFormed ∧ Instr.clrf.WellFormed := by
  decide

theorem witness_PortsShowRegistersAndIdleHolds : State.reset.inbox = [] ∧ busy.outputs.fault = false ∧
    broken.outputs.fault = true := by decide

theorem witness_StepRunsDecodedCommand :
    (presentEdge (Edge.command 0x22008214) busy).resetSeen = true ∧
    (presentEdge (Edge.command 0x22008214) busy).inbox =
      { rst := false, cmdValid := true, cmd := 0x22008214 } :: [Edge.idle] ∧
    decode 0x22008214#32 = .ok (.dec 0x8214 16) := by decide

/-- The refused words, legal and illegal; the illegal words; the operands on either side of each check. -/
theorem witness_StepFollowsOrderOfChecks :
    busy.resetSeen = true ∧ broken.resetSeen = true ∧ Edge.reset.rst = true ∧ Edge.idle.rst = false ∧
    Edge.idle.cmdValid = false ∧ (Edge.command 0).rst = false ∧ (Edge.command 0).cmdValid = true ∧
    broken.regs.flt ≠ .none ∧ (Edge.command 0xE0000001).cmd ≠ 0xE0000000#32 ∧
    busy.regs.flt = .none ∧ (Edge.command 0xE0000000).cmd = 0xE0000000#32 ∧
    (∀ r ∈ opcodeTable, r.selects 0x04000041#32 = false) ∧
    selectedBy 0x00000800#32 = ["ENC"] ∧ Cmd.arg 0x00000800#32 = 2048 ∧
    selectedBy 0x40000800#32 = ["PACK"] ∧ Cmd.arg 0x40000800#32 = 2048 ∧
    (∀ c ∈ [0x20000000#32, 0x21E00000#32, 0x22200000#32, 0x23E00000#32], selectedBy c = ["DEC"] ∧
      Cmd.len c ≠ 16) ∧
    selectedBy 0x000007FF#32 = ["ENC"] ∧ Cmd.arg 0x000007FF#32 = 2047 ∧
    selectedBy 0x2200FFFF#32 = ["DEC"] ∧ Cmd.len 0x2200FFFF#32 = 16 ∧
    selectedBy 0xE0000000#32 = ["CLRF"] := by
  refine ⟨rfl, rfl, rfl, rfl, rfl, rfl, rfl, by decide, by decide, rfl, rfl, by decide, by decide, rfl, by decide, rfl, ?_,
    by decide, rfl, by decide, rfl, by decide⟩
  intro c hc; fin_cases hc <;> decide

theorem witness_NothingIsFatal : busy.resetSeen = true ∧ broken.resetSeen = true := by decide

theorem witness_EveryStepKeepsInvariant :
    (presentEdge (Edge.command 0x2200FFFF) busy).Inv ∧
    after (step (presentEdge (Edge.command 0x2200FFFF) busy)) =
      busyWith { res := 0xFFFF, dat := 0x7FF, chr := 0xFF, syn := 0, par := false, cor := false, flt := .none } := by decide

/-- A step that changes `DAT` and `CHR` and is no reset. -/
theorem witness_CharIsLowByteOfData :
    (presentEdge (Edge.command 0xC000FFFF) busy).regs.chr =
      (presentEdge (Edge.command 0xC000FFFF) busy).regs.dat.extractLsb' 0 8 ∧
    (nextEdge (presentEdge (Edge.command 0xC000FFFF) busy)).rst = false ∧
    after (step (presentEdge (Edge.command 0xC000FFFF) busy)) = busyWith { busy.regs with dat := 0x7FF, chr := 0xFF } := by
  decide

/-- A step that changes all six data registers; one that records a fault; one that clears it. -/
theorem witness_RegistersWrittenOnlyByTheirCommands :
    (nextEdge (presentEdge (Edge.command 0x22008234) busy)).rst = false ∧
    after (step (presentEdge (Edge.command 0x22000001) busy)) =
      busyWith { res := 0, dat := 0, chr := 0, syn := 0, par := true, cor := true, flt := .none } ∧
    after (step (presentEdge (Edge.command 0x22008212) busy)) =
      busyWith { res := 0x821A, dat := 0x441, chr := 0x41, syn := 3, par := false, cor := true, flt := .none } ∧
    after (step (presentEdge (Edge.command 0x00000800) busy)) = busyWith { busy.regs with flt := .cptl } ∧
    after (step (presentEdge (Edge.command 0xE0000000) broken)) = some busy := by decide

/-- Two states that differ in every data register and agree on `FLT`. -/
theorem witness_CommandsReadNoDataRegister :
    busy.resetSeen = State.reset.resetSeen ∧ busy.regs.flt = State.reset.regs.flt ∧
    after (present 0x00000041#32 busy) = busyWith { busy.regs with res := 0x8214 } ∧
    after (present 0x00000041#32 State.reset) = some { State.reset with regs := { Regs.reset with res := 0x8214 } } := by decide

theorem witness_CommandsAreIdempotent :
    after (present 0x00000800#32 busy) = busyWith { busy.regs with flt := .cptl } ∧
    after (present 0x00000800#32 { busy with regs := { busy.regs with flt := .cptl } }) =
      busyWith { busy.regs with flt := .cptl } := by decide

/-- For FaultsHaveExactlyTheirCauses, IllegalWordsAreTheFourCases and the ILLC clause of every command: a block that accepts
commands, and the words on either side of each condition. -/
theorem witness_FaultsHaveExactlyTheirCauses :
    busy.Ready ∧ decode 0x00000800#32 = .ok (.enc 2048) ∧ decode 0x400007FF#32 = .ok (.pack 2047) ∧
    decode 0x21E00000#32 = .ok (.dec 0 15) ∧ decode 0x22200000#32 = .ok (.dec 0 17) ∧
    decode 0x22000000#32 = .ok (.dec 0 16) ∧ (∀ r ∈ opcodeTable, r.selects 0xE0000001#32 = false) := by decide

theorem witness_FaultEntryWritesOnlyFlt :
    busy.Ready ∧ after (present 0xFFFFFFFF#32 busy) = busyWith { busy.regs with flt := .illc } ∧
    FaultCause.illc ≠ .none := by decide

theorem witness_RefusalWhileFaulted :
    broken.resetSeen = true ∧ broken.regs.flt ≠ .none ∧ 0xE0000001#32 ≠ 0xE0000000#32 ∧ 0x00000041#32 ≠ 0xE0000000#32 := by
  decide

theorem witness_ClearedFaultRecursOnReissue :
    busy.Ready ∧ after (present 0x21E00000#32 busy) = some broken ∧ broken.regs.flt ≠ .none := by decide

theorem witness_NoFaultMeansFreshResults :
    busy.resetSeen = true ∧ after (present 0xC000FFFF#32 busy) = busyWith { busy.regs with dat := 0x7FF, chr := 0xFF } ∧
    busy.ResultsFresh ∧ broken.resetSeen = true ∧ after (present 0xE0000000#32 broken) = some busy ∧
    busy.regs.flt = .none := by decide

/-- Well-formed commands with operands at the ends of their fields, one of each. -/
theorem witness_DecodeInvertsEncode :
    ∀ i ∈ [Instr.enc 0, .enc 2097151, .dec 0xFFFF 0, .dec 0x8000 31, .pack 2097151, .pgen 0xFFFF, .synd 1, .corr 0x8000,
      .unpk 0xFFFF, .clrf], i.WellFormed := by decide

theorem witness_EncodeInvertsDecode : decode 0x23E0FFFF#32 = .ok (.dec 0xFFFF 31) := by decide

theorem witness_IllegalWordsAreTheFourCases :
    busy.Ready ∧ decode 0xE0000001#32 = .error .clrfArgumentSet ∧ decode 0x04000041#32 = .error .reservedBitsSet := by decide

theorem witness_OpcodeMapDecidesEveryWord :
    selectedBy 0x001FFFFF#32 = ["ENC"] ∧ (∀ r ∈ opcodeTable, r.selects 0x00200000#32 = false) := by decide

/-- One word of each case, the last that of several. -/
theorem witness_IllegalReasonHolds :
    decode 0x1C000000#32 = .error .reservedBitsSet ∧ decode 0x40200000#32 = .error .lengthFieldUnused ∧
    decode 0x20100000#32 = .error .wordOperandTooWide ∧ decode 0xE0100000#32 = .error .clrfArgumentSet ∧
    decode 0xFFFFFFFF#32 = .error .reservedBitsSet := by decide

/-- For RecordsIllc in every command's statement: an ill-formed word of each operation and each field. -/
theorem witness_RecordsIllc :
    busy.Ready ∧
    (∀ p ∈ [(0x00200000#32, 0#3), (0x40200000#32, 2#3), (0x60200000#32, 3#3), (0x80200000#32, 4#3), (0xA0200000#32, 5#3),
      (0xC0200000#32, 6#3)], Cmd.op p.1 = p.2 ∧ Cmd.len p.1 ≠ 0) ∧
    (∀ p ∈ [(0x04000000#32, 0#3), (0x24000000#32, 1#3), (0x44000000#32, 2#3), (0x64000000#32, 3#3), (0x84000000#32, 4#3),
      (0xA4000000#32, 5#3), (0xC4000000#32, 6#3)], Cmd.op p.1 = p.2 ∧ Cmd.rsv p.1 ≠ 0) ∧
    (∀ p ∈ [(0x20010000#32, 1#3), (0x60010000#32, 3#3), (0x80010000#32, 4#3), (0xA0010000#32, 5#3), (0xC0010000#32, 6#3)],
      Cmd.op p.1 = p.2 ∧ Cmd.argHigh p.1 ≠ 0) := by
  refine ⟨by decide, ?_, ?_, ?_⟩ <;> intro p hp <;> fin_cases hp <;> decide

/-- For the statements of the eight commands: a state of each kind, and operands on either side of each check. -/
theorem witness_EncWritesCodeword :
    busy.regs.flt = .none ∧ broken.regs.flt ≠ .none ∧ 2047 < 2048 ∧ 2048 ≥ 2048 ∧ 2097151 < 2 ^ 21 := by
  refine ⟨rfl, by decide, by omega, by omega, by omega⟩

theorem witness_PackPlacesDataBits : busy.regs.flt = .none ∧ broken.regs.flt ≠ .none ∧ 2047 < 2048 ∧ 2048 ≥ 2048 := by decide

theorem witness_PgenRecomputesParity :
    (∀ i ∈ [3, 5, 6, 7, 9, 10, 11, 12, 13, 14, 15], (0xABCD#16).getLsbD i = (0xAACC#16).getLsbD i) ∧
    validCodeword 0xAACC = true := by decide

theorem witness_SyndWritesSyndromeAndParity : busy.regs.flt = .none ∧ broken.regs.flt ≠ .none := by decide

/-- One word of each row of R112's table. -/
theorem witness_CorrFlipsAtSyndrome :
    validCodeword 0x8214 = true ∧ (syndrome 0x8214 = 0 ∧ overallParity 0x8214 = false) ∧
    (syndrome 0x8215 = 0 ∧ overallParity 0x8215 = true) ∧ (syndrome 0x8234 ≠ 0 ∧ overallParity 0x8234 = true) ∧
    (syndrome 0x8212 ≠ 0 ∧ overallParity 0x8212 = false) := by decide

theorem leavesDatChr_zero (w : Word) (h : extractData w = 0) : LeavesDatChr w 0 0 := by
  intro s hs
  rw [exec_unpk, if_pos hs, h]
  rfl

theorem witness_UnpkExtractsDataBits :
    (∀ i ∈ [3, 5, 6, 7, 9, 10, 11, 12, 13, 14, 15], (0x0000#16).getLsbD i = (0x0117#16).getLsbD i) ∧
    LeavesDatChr 0x0000 0 0 ∧ LeavesDatChr 0x0117 0 0 :=
  ⟨by decide, leavesDatChr_zero _ (by decide), leavesDatChr_zero _ (by decide)⟩

theorem witness_DecDecodesChunk : 31 < 32 ∧ 15 ≠ 16 ∧ 17 ≠ 16 ∧ busy.regs.flt = .none ∧ broken.regs.flt ≠ .none := by decide

theorem witness_ClrfClearsFault :
    busy.regs.flt = .none ∧ busy.Ready ∧ broken.resetSeen = true ∧ broken.regs.flt ≠ .none ∧
    Cmd.op 0xE0000001#32 = 7 ∧ 0xE0000001#32 ≠ 0xE0000000#32 ∧ after (present (encode .clrf) broken) ≠ some broken := by decide

theorem witness_OverallParityOfDataBits : busy.regs.flt = .none ∧ 2047 < 2048 := by decide

theorem witness_FlippedBitMovesSyndrome :
    syndrome 0 = 0 ∧ syndrome 0x8212 = 3 ∧ syndrome (0x8212 ^^^ (1#16 <<< 15)) = 12 := by decide

theorem witness_EncoderIsInjectiveAndLinear :
    encodeWord 65 = some 0x8214 ∧ encodeWord 2047 = some 0xFFFF ∧ encodeWord 2048 = none ∧ validCodeword 0x8214 = true ∧
    validCodeword 0xFFFF = true := by decide

theorem witness_CodewordsDifferInFourBits :
    validCodeword 0x8214 = true ∧ validCodeword 0x0000 = true ∧ 0x8214#16 ≠ 0x0000#16 := by decide

theorem witness_EncIsPackThenPgen : 0 < 2048 ∧ 2047 < 2048 := by decide

theorem witness_DecIsCorrThenUnpk : busy.regs.flt = .none ∧ 2047 < 2048 := by decide

/-- A word of each case of R114. -/
theorem witness_CorrectedWordValidity :
    (overallParity 0x8212 = false ∧ syndrome 0x8212 ≠ 0) ∧ (overallParity 0x8234 = true) ∧ syndrome 0x8214 = 0 := by decide

theorem witness_SingleErrorIsCorrected : 0 < 2048 ∧ 2047 < 2048 ∧ 0 < 16 ∧ 15 < 16 := by decide

theorem witness_TwoErrorsAreMiscorrected : 2047 < 2048 ∧ (0 < 15 ∧ 15 < 16) ∧ (14 < 15 ∧ 15 < 16) ∧ (13 < 14 ∧ 14 < 15) := by
  decide

theorem witness_CharacterIsTruncated :
    (∀ i ∈ [7, 9, 10, 11, 12, 13, 14, 15], (0x0000#16).getLsbD i = (0x0117#16).getLsbD i) ∧ LeavesDatChr 0x0000 0 0 ∧
    LeavesDatChr 0x0117 0 0 ∧ (256 ≤ 256 ∧ 256 < 2048) ∧ (256 ≤ 2047 ∧ 2047 < 2048) :=
  ⟨by decide, leavesDatChr_zero _ (by decide), leavesDatChr_zero _ (by decide), by decide, by decide⟩

theorem witness_StreamOrderOfACodeword : 0 < 2048 ∧ 2047 < 2048 := by decide

theorem witness_WrittenFormsOfAWord :
    15 < 16 ∧ (0x8214#16).getLsbD 15 = true ∧ (0x8214#16).getLsbD 0 = false ∧ indexForm 0x8214 = [2, 4, 9, 15] := by decide

theorem witness_WrittenCommandsRead :
    (Instr.enc 0).WellFormed ∧ (Instr.enc 2097151).WellFormed ∧ (Instr.pack 2097151).WellFormed ∧
    (Instr.dec 0xFFFF 0).WellFormed ∧ (Instr.dec 0 31).WellFormed ∧ (Instr.pgen 0xABCD).WellFormed ∧ Instr.clrf.WellFormed ∧
    31 < 32 ∧ 2097151 < 2 ^ 21 := by
  refine ⟨?_, ?_, ?_, ?_, ?_, ?_, ?_, by omega, by omega⟩ <;> decide

theorem encodeWord_A : encodeWord 65 = some 0x8214 := by decide

/-- The stream of a text of two characters. -/
theorem witness_StreamChunksAreCodewords :
    encodeText [65, 2047] = .complete (streamOfWord 0x8214 ++ streamOfWord 0xFFFF) ∧ 1 < [65, 2047].length := by
  have h : encodeWord 2047 = some 0xFFFF := by decide
  refine ⟨?_, by decide⟩
  simp [encodeText, encodedBits, encodeWord_A, h]

/-- A text with a character at either side of the limit, and the largest that can be presented. -/
theorem witness_EncsComputesEncode :
    busy.Ready ∧ (∀ c ∈ [0, 2047], c < 2048) ∧ (∃ c ∈ [65, 2048], 2048 ≤ c) ∧ (∀ c ∈ [65, 2048, 2097151], c < 2 ^ 21) := by
  decide

theorem witness_DecsComputesDecode :
    busy.Ready ∧ (streamOfWord 0x8214).length % 16 = 0 ∧ (List.replicate 15 true).length % 16 ≠ 0 ∧
    (List.replicate 17 true).length % 16 ≠ 0 := by decide

theorem witness_DecsHostsAgree :
    busy.Ready ∧ (List.replicate 15 true).length % 16 ≠ 0 ∧ (streamOfWord 0x8214).length % 16 = 0 := by decide

/-- A batch that ended in error and one that ended well. -/
theorem witness_FailedBatchIsAcknowledged :
    busy.Ready ∧ result (encs [2048] busy) = some (.failed .codePointTooLarge) ∧
    result (decs [] busy) = some (.complete { text := [], corrected := [] }) ∧
    result (decs [true] busy) = some (.failed .malformedStream) ∧ Instr.enc 65 ≠ .clrf := by decide

theorem witness_RoundTripOfAText :
    busy.Ready ∧ (∀ c ∈ [0, 255, 2047], c < 2048) ∧ (∀ c ∈ [0, 255], c ≤ 255) := by decide

/-- An error at the last bit of one chunk, none in the next. -/
theorem witness_OneErrorPerChunkIsCorrected :
    busy.Ready ∧ encodeText [65, 0] = .complete (streamOfWord 0x8214 ++ streamOfWord 0) ∧
    (streamOfWord 0x8000 ++ streamOfWord 0).length = (streamOfWord 0x8214 ++ streamOfWord 0).length ∧
    (∀ k < 2, weight (chunk (streamOfWord 0x8000 ++ streamOfWord 0) k) ≤ 1) ∧
    chunk (streamOfWord 0x8000 ++ streamOfWord 0) 0 = 1#16 <<< 15 := by
  have h : encodeWord 0 = some 0 := by decide
  have h0 : chunk (streamOfWord 0x8000 ++ streamOfWord 0) 0 = 0x8000 := chunk_zero_append _ _
  have h1 : chunk (streamOfWord 0x8000 ++ streamOfWord 0) 1 = 0 := by rw [chunk_succ_append]; decide
  refine ⟨by decide, by simp [encodeText, encodedBits, encodeWord_A, h], by simp, ?_, by rw [h0]; rfl⟩
  intro k hk
  interval_cases k
  · rw [h0]; decide
  · rw [h1]; decide

/-- Two overlapping events. -/
theorem witness_NoiseIsAnErrorMask :
    injectNoise [false, false, false] [0, 1] 1 = some [false, false, true] := by decide

theorem witness_NoiseIsContained :
    (∀ i ∈ [0, 2], i < [false, false, false].length) ∧
    injectNoise [false, false, false] [2] 0 = some [false, false, true] := by decide

end Sys2Proof.Tests
end

section
/-! PROOFS. The written forms of a word (R8, R43): reading the symbols of a stream gives the stream back, and what the string
form and the index form hold at each index. -/

namespace Sys2Proof.Machine

/-! ## Symbols of a stream -/

@[simp] theorem bitOfSymbol_symbolOfBit (b : Bool) : bitOfSymbol (symbolOfBit b) = some b := by
  cases b <;> rfl

theorem streamOfSymbols_map_symbolOfBit (S : List Bool) : streamOfSymbols (S.map symbolOfBit) = some S := by
  unfold streamOfSymbols
  induction S with
  | nil => rfl
  | cons b S ih => simp [ih]

/-! ## The string form -/

@[simp] theorem stringForm_length (w : Word) : (stringForm w).length = 16 := by
  simp [stringForm]

theorem streamOfWord_getElem? (w : Word) (i : Nat) (hi : i < 16) : (streamOfWord w)[i]? = some (w.getLsbD i) := by
  simp [streamOfWord, bitsAt, allSlots, hi]

theorem stringForm_getElem? (w : Word) (i : Nat) (hi : i < 16) :
    (stringForm w)[i]? = some (symbolOfBit (w.getLsbD i)) := by
  simp [stringForm, streamOfWord_getElem? w i hi]

theorem chunk_zero_streamOfWord (w : Word) : chunk (streamOfWord w) 0 = w := by
  simpa using chunk_zero_append w []

@[simp] theorem wordOfStringForm_stringForm (w : Word) : wordOfStringForm (stringForm w) = some w := by
  have hread : streamOfSymbols (stringForm w) = some (streamOfWord w) := streamOfSymbols_map_symbolOfBit _
  simp [wordOfStringForm, hread, chunk_zero_streamOfWord]

/-! ## The index form -/

/-- Bits past the word are 0, so that no bound on the index is needed. -/
theorem mem_indexForm (w : Word) (i : Nat) : i ∈ indexForm w ↔ w.getLsbD i = true := by
  have hslot : w.getLsbD i = true → i < 16 := BitVec.lt_of_getLsbD
  simpa [indexForm, allSlots] using hslot

/-- Settles O48: reading inverts writing symbol by symbol, and a chunk read from the stream of a word is the word. -/
theorem writtenFormsOfAWord : Obligations.WrittenFormsOfAWord := by
  intro w
  exact ⟨stringForm_length w, wordOfStringForm_stringForm w, stringForm_getElem? w, mem_indexForm w⟩

end Sys2Proof.Machine
end

section
/-! PROOFS. What an edge writes to the registers, as a function of the edge and of `FLT` alone (R22, R31), and the whole next
state of a step in those terms. -/

namespace Sys2Proof.Machine

/-! ## Register writes as data -/

/-- A set of register writes: for each of the seven registers the value written, `none` when it is left as it is (R22). -/
structure RegWrites where
  res : Option Word := none
  dat : Option DataBits := none
  chr : Option CharCode := none
  syn : Option Syndrome := none
  par : Option Bool := none
  cor : Option Bool := none
  flt : Option FaultCause := none

/-- The registers after a set of writes. -/
def RegWrites.apply (u : RegWrites) (r : Regs) : Regs :=
  { res := u.res.getD r.res, dat := u.dat.getD r.dat, chr := u.chr.getD r.chr, syn := u.syn.getD r.syn,
    par := u.par.getD r.par, cor := u.cor.getD r.cor, flt := u.flt.getD r.flt }

section
variable (u : RegWrites) (r : Regs)

@[simp] theorem RegWrites.apply_res : (u.apply r).res = u.res.getD r.res := rfl
@[simp] theorem RegWrites.apply_dat : (u.apply r).dat = u.dat.getD r.dat := rfl
@[simp] theorem RegWrites.apply_chr : (u.apply r).chr = u.chr.getD r.chr := rfl
@[simp] theorem RegWrites.apply_syn : (u.apply r).syn = u.syn.getD r.syn := rfl
@[simp] theorem RegWrites.apply_par : (u.apply r).par = u.par.getD r.par := rfl
@[simp] theorem RegWrites.apply_cor : (u.apply r).cor = u.cor.getD r.cor := rfl
@[simp] theorem RegWrites.apply_flt : (u.apply r).flt = u.flt.getD r.flt := rfl
@[simp] theorem RegWrites.apply_empty : RegWrites.apply {} r = r := rfl

end

/-- A register that differs was written. -/
theorem ne_none_of_getD_ne {α : Type} {o : Option α} {a : α} (h : o.getD a ≠ a) : o ≠ none := by
  rintro rfl
  exact h rfl

/-- One write to two registers: both keep what they hold, or both hold the written value. -/
theorem getD_kept_or_same {α : Type} (o : Option α) (a b : α) :
    (o.getD a = a ∧ o.getD b = b) ∨ o.getD a = o.getD b := by
  cases o with
  | none => exact .inl ⟨rfl, rfl⟩
  | some v => exact .inr rfl

/-! ## What each command writes -/

/-- The writes of a command that is not refused (R88 to R90, R121 to R124, R140). -/
def instrWrites : Instr → RegWrites
  | .enc cp => if 2048 ≤ cp then { flt := some .cptl } else { res := some (encodeData (BitVec.ofNat 11 cp)) }
  | .dec w len =>
    if len ≠ 16 then { flt := some .malf }
    else
      { res := some (correctWord w), dat := some (extractData (correctWord w)),
        chr := some (charOfData (extractData (correctWord w))), syn := some (syndrome w), par := some (overallParity w),
        cor := some (correctionNeeded (syndrome w) (overallParity w)) }
  | .pack cp => if 2048 ≤ cp then { flt := some .cptl } else { res := some (placeData (BitVec.ofNat 11 cp)) }
  | .pgen w => { res := some (generateParity w) }
  | .synd w => { syn := some (syndrome w), par := some (overallParity w) }
  | .corr w =>
    { res := some (correctWord w), syn := some (syndrome w), par := some (overallParity w),
      cor := some (correctionNeeded (syndrome w) (overallParity w)) }
  | .unpk w => { dat := some (extractData w), chr := some (charOfData (extractData w)) }
  | .clrf => { flt := some .none }

/-- A command that is not refused does its writes and nothing else. -/
theorem exec_eq_writes (i : Instr) (s : State) (h : s.regs.flt = .none ∨ i = .clrf) :
    exec i s = .next { s with regs := (instrWrites i).apply s.regs } := by
  rcases h with h | rfl
  · cases i with
    | enc cp => rw [exec_enc, if_pos h, instrWrites]; split <;> rfl
    | dec w len => rw [exec_dec, if_pos h, instrWrites]; split <;> rfl
    | pack cp => rw [exec_pack, if_pos h, instrWrites]; split <;> rfl
    | pgen w => rw [exec_pgen, if_pos h]; rfl
    | synd w => rw [exec_synd, if_pos h]; rfl
    | corr w => rw [exec_corr, if_pos h]; rfl
    | unpk w => rw [exec_unpk, if_pos h]; rfl
    | clrf => rfl
  · rfl

/-- `CHR` is written exactly with `DAT`, as its low byte (R25). -/
theorem instrWrites_chr (i : Instr) : (instrWrites i).chr = (instrWrites i).dat.map charOfData := by
  cases i with
  | enc cp => rw [instrWrites]; split <;> rfl
  | dec w len => rw [instrWrites]; split <;> rfl
  | pack cp => rw [instrWrites]; split <;> rfl
  | pgen w => rfl
  | synd w => rfl
  | corr w => rfl
  | unpk w => rfl
  | clrf => rfl

/-- The table of R22: each data register is written by the commands of its row only. -/
def WritesFollowTable (i : Instr) : Prop :=
  ((instrWrites i).res ≠ none → i.mnemonic ∈ ["ENC", "PACK", "PGEN", "CORR", "DEC"]) ∧
  ((instrWrites i).dat ≠ none → i.mnemonic ∈ ["UNPK", "DEC"]) ∧
  ((instrWrites i).chr ≠ none → i.mnemonic ∈ ["UNPK", "DEC"]) ∧
  ((instrWrites i).syn ≠ none → i.mnemonic ∈ ["SYND", "CORR", "DEC"]) ∧
  ((instrWrites i).par ≠ none → i.mnemonic ∈ ["SYND", "CORR", "DEC"]) ∧
  ((instrWrites i).cor ≠ none → i.mnemonic ∈ ["CORR", "DEC"])

theorem writesFollowTable (i : Instr) : WritesFollowTable i := by
  unfold WritesFollowTable
  cases i with
  | enc cp => rw [instrWrites]; split <;> simp [Instr.mnemonic]
  | dec w len => simp [Instr.mnemonic]
  | pack cp => rw [instrWrites]; split <;> simp [Instr.mnemonic]
  | pgen w => simp [instrWrites, Instr.mnemonic]
  | synd w => simp [instrWrites, Instr.mnemonic]
  | corr w => simp [instrWrites, Instr.mnemonic]
  | unpk w => simp [instrWrites, Instr.mnemonic]
  | clrf => simp [instrWrites]

/-! ## What each edge writes -/

/-- The writes of a reset edge: every register takes its reset value (R33). -/
def RegWrites.reset : RegWrites :=
  { res := some 0, dat := some 0, chr := some 0, syn := some 0, par := some false, cor := some false, flt := some .none }

/-- The writes of a command word, with `f` in `FLT` (R167, R195). -/
def commandWrites (c : Cmd) (f : FaultCause) : RegWrites :=
  match decode c with
  | .error _ => if f = .none then { flt := some .illc } else {}
  | .ok i => if f = .none ∨ i = .clrf then instrWrites i else {}

/-- The writes of an edge, with `f` in `FLT` (R195). -/
def edgeWrites (e : Edge) (f : FaultCause) : RegWrites :=
  if e.rst then RegWrites.reset else if e.cmdValid then commandWrites e.cmd f else {}

/-- A command word does its writes and nothing else, whatever the data registers hold (R31). -/
theorem runCommand_eq_writes (c : Cmd) (s : State) :
    runCommand c s = .next { s with regs := (commandWrites c s.regs.flt).apply s.regs } := by
  unfold commandWrites
  cases hd : decode c with
  | ok i =>
    rw [runCommand_of_decode s c i hd]
    dsimp only
    split
    · next h => exact exec_eq_writes i s h
    · next h =>
      obtain ⟨hf, hi⟩ := not_or.mp h
      exact exec_of_fault s i hf hi
  | error e =>
    have hc : c ≠ clrfWord := by
      rintro rfl
      rw [decode_clrfWord] at hd
      cases hd
    rcases runCommand_cases s c with ⟨hf, _, hr⟩ | ⟨hf, _, hr⟩ | ⟨_, i, hi, _⟩
    · rw [hr]
      dsimp only
      rw [if_neg hf]
      rfl
    · rw [hr]
      dsimp only
      rw [if_pos (hf.resolve_right hc)]
      rfl
    · cases hd.symm.trans hi

/-- The whole next state of a step that answers one. -/
theorem step_eq_writes {s s' : State} (h : step s = .next s') :
    s' = { regs := (edgeWrites (nextEdge s) s.regs.flt).apply s.regs, inbox := s.inbox.tail,
           resetSeen := (nextEdge s).rst || s.resetSeen } := by
  unfold edgeWrites
  rcases step_next_cases h with ⟨hr, rfl⟩ | ⟨hr, hv, rfl⟩ | ⟨hr, hv, _, hc⟩
  · rw [hr]; rfl
  · rw [hr, hv]; rfl
  · rw [runCommand_eq_writes] at hc
    cases hc
    rw [hr, hv]
    rfl

/-- What an edge that is no reset can write: nothing, the cause ILLC, or the writes of its command. -/
theorem edgeWrites_cases (e : Edge) (f : FaultCause) (hr : e.rst = false) :
    edgeWrites e f = {} ∨
    (e.cmdValid = true ∧ f = .none ∧ edgeWrites e f = { flt := some .illc }) ∨
    (e.cmdValid = true ∧ ∃ i, decode e.cmd = .ok i ∧ (f = .none ∨ i = .clrf) ∧ edgeWrites e f = instrWrites i) := by
  unfold edgeWrites
  rw [hr]
  cases hv : e.cmdValid with
  | false => exact .inl rfl
  | true =>
    unfold commandWrites
    cases decode e.cmd with
    | error x =>
      by_cases hf : f = .none
      · exact .inr (.inl ⟨rfl, hf, by simp [hf]⟩)
      · exact .inl (by simp [hf])
    | ok i =>
      by_cases h : f = .none ∨ i = .clrf
      · exact .inr (.inr ⟨rfl, i, rfl, h, by simp [h]⟩)
      · exact .inl (by simp [h])

/-- Every edge writes `CHR` exactly with `DAT`, as its low byte (R25, R33). -/
theorem edgeWrites_chr (e : Edge) (f : FaultCause) : (edgeWrites e f).chr = (edgeWrites e f).dat.map charOfData := by
  cases hr : e.rst with
  | true => unfold edgeWrites; rw [hr]; rfl
  | false =>
    rcases edgeWrites_cases e f hr with h | ⟨_, _, h⟩ | ⟨_, i, _, _, h⟩ <;> rw [h]
    · rfl
    · rfl
    · exact instrWrites_chr i

/-- Writes that put the low byte of `DAT` into `CHR` keep the two equal. -/
theorem RegWrites.apply_keeps_lowByte {u : RegWrites} {r : Regs} (hu : u.chr = u.dat.map charOfData)
    (h : r.chr = r.dat.extractLsb' 0 8) : (u.apply r).chr = (u.apply r).dat.extractLsb' 0 8 := by
  cases hd : u.dat with
  | none => simpa [hu, hd] using h
  | some d => simpa [hu, hd] using charOfData_eq_extractLsb d

end Sys2Proof.Machine
end

section
/-! PROOFS. Reset, ports and the registers of the block: `CHR` against `DAT`, who writes which register, and that no command
reads one (R22 to R34, R190 to R195). -/

namespace Sys2Proof.Machine

open Sys2Proof.Spec

/-! ## The invariant -/

/-- A step keeps `CHR` the low byte of `DAT` (R25). -/
theorem step_keeps_lowByte {s s' : State} (h : step s = .next s') (hs : s.regs.chr = s.regs.dat.extractLsb' 0 8) :
    s'.regs.chr = s'.regs.dat.extractLsb' 0 8 := by
  rw [step_eq_writes h]
  exact RegWrites.apply_keeps_lowByte (edgeWrites_chr _ _) hs

/-- Settles O10: a step never clears `resetSeen`, and it writes `CHR` and `DAT` together. -/
theorem everyStepKeepsInvariant : Obligations.EveryStepKeepsInvariant := by
  intro s s' ⟨hreset, hlow⟩ h
  have hseen : s'.resetSeen = true := by rw [step_eq_writes h]; simp [hreset]
  exact ⟨hseen, step_keeps_lowByte h hlow⟩

/-- Settles O9. -/
theorem resetStateMeetsInvariant : Obligations.ResetStateMeetsInvariant := ⟨rfl, rfl⟩

/-! ## Reset, ports, idle edges -/

/-- The decoder gives a well-formed command back from its word: its fields pick its row, and its operands fit them. -/
theorem decode_encode (i : Instr) (h : i.WellFormed) : decode (encode i) = .ok i := by
  obtain ⟨hop, hrsv, hlen, harg⟩ := Sys2Proof.Laws.EncodedFields.fields i
  have hword (w : Word) : (w.setWidth 21).setWidth 16 = w := by simp
  have hhigh (w : Word) : (w.setWidth 21).extractLsb' 16 5 = 0 := by
    apply BitVec.eq_of_getLsbD_eq
    intro k hk
    simp
  rw [decode_by_fields, hop, hrsv, hlen, word_eq_arg, argHigh_eq_arg, Cmd.codePoint, Cmd.chunkLength, hlen, harg]
  cases i with
  | enc cp =>
    have hcp : cp % 2097152 = cp := Nat.mod_eq_of_lt (of_decide_eq_true h)
    simp [Instr.opcode, Instr.lenField, Instr.argField, hcp]
  | dec w len =>
    have hl : len % 32 = len := Nat.mod_eq_of_lt (of_decide_eq_true h)
    simp [Instr.opcode, Instr.lenField, Instr.argField, hl, hword, hhigh]
  | pack cp =>
    have hcp : cp % 2097152 = cp := Nat.mod_eq_of_lt (of_decide_eq_true h)
    simp [Instr.opcode, Instr.lenField, Instr.argField, hcp]
  | pgen w => simp [Instr.opcode, Instr.lenField, Instr.argField, hword, hhigh]
  | synd w => simp [Instr.opcode, Instr.lenField, Instr.argField, hword, hhigh]
  | corr w => simp [Instr.opcode, Instr.lenField, Instr.argField, hword, hhigh]
  | unpk w => simp [Instr.opcode, Instr.lenField, Instr.argField, hword, hhigh]
  | clrf => simp [Instr.opcode, Instr.lenField, Instr.argField]

/-- A well-formed command presented after a reset runs as its meaning (R195). -/
theorem present_encode (i : Instr) (s : State) (hi : i.WellFormed) (hs : s.resetSeen = true) :
    present (encode i) s = exec i s := by
  unfold present
  rw [step_command s _ hs, runCommand_of_decode s _ i (decode_encode i hi)]

/-- A reset edge, whatever the command ports carry (R191). -/
theorem step_presentEdge_reset (s : State) (v : Bool) (c : Cmd) :
    step (presentEdge { rst := true, cmdValid := v, cmd := c } s) = .next (resetEdge s) := rfl

/-- An idle edge, whatever `cmd` carries (R195). -/
theorem step_presentEdge_idle (s : State) (c : Cmd) :
    step (presentEdge { rst := false, cmdValid := false, cmd := c } s) = .next s := rfl

/-- Settles O1: the next state is `resetEdge s`. -/
theorem resetClearsEveryRegister : Obligations.ResetClearsEveryRegister := by
  intro s v c
  exact ⟨resetEdge s, step_presentEdge_reset s v c, rfl, rfl, ⟨rfl, rfl⟩, fun i hi => present_encode i _ hi rfl⟩

/-- Settles O2. -/
theorem resetStateHoldsSpecValues : Obligations.ResetStateHoldsSpecValues := ⟨rfl, rfl, rfl⟩

/-- Settles O3: the three kinds of edge, on a block that has never been reset. -/
theorem commandBeforeResetStops : Obligations.CommandBeforeResetStops := by
  intro anything c v
  exact ⟨rfl, step_presentEdge_idle _ c, step_presentEdge_reset _ v c⟩

/-- The port `fault` and the port `flt` agree (R30). -/
theorem fault_iff_code_ne_zero (r : Regs) : r.fault = true ↔ r.flt.code ≠ 0 := by
  unfold Regs.fault
  cases r.flt <;> decide

/-- With nothing left to drive, an edge is idle (log 1). -/
theorem step_of_inbox_nil (s : State) (h : s.inbox = []) : step s = .next s := by
  obtain ⟨regs, inbox, resetSeen⟩ := s
  cases h
  rfl

/-- Settles O4. -/
theorem portsShowRegistersAndIdleHolds : Obligations.PortsShowRegistersAndIdleHolds := by
  intro s c
  exact ⟨⟨rfl, rfl, rfl, rfl, rfl, rfl, rfl⟩, fault_iff_code_ne_zero s.regs, step_presentEdge_idle s c, step_of_inbox_nil s⟩

/-! ## The two bits of FLT -/

/-- The cause with a given number (R29). -/
def FaultCause.ofCode (b : BitVec 2) : FaultCause :=
  if b = 0 then .none else if b = 1 then .cptl else if b = 2 then .malf else .illc

theorem FaultCause.ofCode_code (c : FaultCause) : FaultCause.ofCode c.code = c := by
  cases c <;> rfl

theorem FaultCause.code_ofCode : ∀ b : BitVec 2, (FaultCause.ofCode b).code = b := by decide

/-- Settles O15: `code` and `ofCode` are inverse to each other. -/
theorem faultCodesAreTheTwoBits : Obligations.FaultCodesAreTheTwoBits := by
  refine ⟨rfl, rfl, rfl, rfl, fun b => ⟨FaultCause.ofCode b, FaultCause.code_ofCode b, ?_⟩⟩
  rintro c' rfl
  exact (FaultCause.ofCode_code c').symm

/-! ## Who writes each register -/

/-- Settles O12: an edge writes nothing, ILLC, or what its command writes, and that follows the table of R22. -/
theorem registersWrittenOnlyByTheirCommands : Obligations.RegistersWrittenOnlyByTheirCommands := by
  intro s s' h hr
  rw [step_eq_writes h]
  rcases edgeWrites_cases (nextEdge s) s.regs.flt hr with hw | ⟨hv, hf, hw⟩ | ⟨hv, i, hd, hfi, hw⟩
  · simp [hw]
  · rw [hw]
    simp [hv, hf]
  · obtain ⟨hres, hdat, hchr, hsyn, hpar, hcor⟩ := writesFollowTable i
    rw [hw]
    refine ⟨rfl, fun _ => hv, fun hne => ⟨i, hd, hres (ne_none_of_getD_ne hne)⟩,
      fun hne => ⟨i, hd, hdat (ne_none_of_getD_ne hne)⟩, fun hne => ⟨i, hd, hchr (ne_none_of_getD_ne hne)⟩,
      fun hne => ⟨i, hd, hsyn (ne_none_of_getD_ne hne)⟩, fun hne => ⟨i, hd, hpar (ne_none_of_getD_ne hne)⟩,
      fun hne => ⟨i, hd, hcor (ne_none_of_getD_ne hne)⟩, fun hne => ?_⟩
    rcases hfi with hf | rfl
    · exact .inl ⟨hf, ne_of_ne_of_eq hne hf⟩
    · exact .inr ⟨hd, rfl⟩

/-- When an edge changes `CHR` or `DAT`, it writes `DAT`, and then the two agree (R25). -/
theorem RegWrites.lowByte_of_changed {u : RegWrites} {r : Regs} (hu : u.chr = u.dat.map charOfData)
    (h : (u.apply r).chr ≠ r.chr ∨ (u.apply r).dat ≠ r.dat) : (u.apply r).chr = (u.apply r).dat.extractLsb' 0 8 := by
  cases hd : u.dat with
  | none => simp [hu, hd] at h
  | some d => simpa [hu, hd] using charOfData_eq_extractLsb d

/-- Settles O11: the rows of `DAT` and `CHR` in the table of R22 are the same, and a write to the one is a write to the other. -/
theorem charIsLowByteOfData : Obligations.CharIsLowByteOfData := by
  intro s s' h
  refine ⟨step_keeps_lowByte h, fun hchange hr => ?_⟩
  obtain ⟨_, _, _, hdat, hchr, _⟩ := registersWrittenOnlyByTheirCommands s s' h hr
  have hwriter : ∃ i, decode (nextEdge s).cmd = .ok i ∧ i.mnemonic ∈ ["UNPK", "DEC"] := hchange.elim hchr hdat
  have hlow : s'.regs.chr = s'.regs.dat.extractLsb' 0 8 := by
    rw [step_eq_writes h] at hchange ⊢
    exact RegWrites.lowByte_of_changed (edgeWrites_chr _ _) hchange
  obtain ⟨i, hd, hi⟩ := hwriter
  exact ⟨i, hd, hi, hlow⟩

/-! ## No command reads a data register -/

/-- The registers after a command word: its writes depend on the word and on `FLT` alone (R31). -/
theorem present_regs {c : Cmd} {s s' : State} (h : present c s = .next s') :
    s'.regs = (edgeWrites (Edge.command c) s.regs.flt).apply s.regs := by
  rw [step_eq_writes h]
  rfl

/-- Settles O13: the two states meet the same writes. -/
theorem commandsReadNoDataRegister : Obligations.CommandsReadNoDataRegister := by
  intro c s t s' t' _ hflt hs ht
  rw [present_regs hs, present_regs ht, hflt]
  refine ⟨?_, getD_kept_or_same _ _ _, getD_kept_or_same _ _ _, getD_kept_or_same _ _ _, getD_kept_or_same _ _ _,
    getD_kept_or_same _ _ _, getD_kept_or_same _ _ _⟩
  simp only [RegWrites.apply_flt, hflt]

end Sys2Proof.Machine
end

section
/-! PROOFS. Repeating a command word (R47): the second presentation writes the same values again, or nothing. -/

namespace Sys2Proof.Machine

open Sys2Proof.Spec

/-- Writing a register twice is writing it once. -/
theorem getD_getD_self {α : Type} (o : Option α) (a : α) : o.getD (o.getD a) = o.getD a := by
  cases o <;> rfl

/-- The same writes, done twice, are the writes done once. -/
theorem RegWrites.apply_apply (u : RegWrites) (r : Regs) : u.apply (u.apply r) = u.apply r := by
  simp only [RegWrites.apply, getD_getD_self]

/-- The writes of a command word on the `FLT` that the same word left: none, when that word faulted or was refused, and
otherwise those of the first time. -/
theorem commandWrites_repeated (c : Cmd) (f : FaultCause) :
    commandWrites c ((commandWrites c f).flt.getD f) = {} ∨
    commandWrites c ((commandWrites c f).flt.getD f) = commandWrites c f := by
  unfold commandWrites
  cases decode c with
  | error e =>
    by_cases hf : f = .none
    · exact .inl (by simp [hf])
    · exact .inr (by simp [hf])
  | ok i =>
    by_cases hrun : f = .none ∨ i = .clrf
    · by_cases hagain : (instrWrites i).flt.getD f = .none ∨ i = .clrf
      · exact .inr (by simp only [if_pos hrun, if_pos hagain])
      · exact .inl (by simp only [if_pos hrun, if_neg hagain])
    · exact .inr (by simp [hrun])

/-- The whole next state of a command word that answers one. -/
theorem present_eq_writes {c : Cmd} {s s' : State} (h : present c s = .next s') :
    s' = { s with regs := (commandWrites c s.regs.flt).apply s.regs } :=
  step_eq_writes h

/-- Settles O14: the second presentation finds the `FLT` that the first one left. -/
theorem commandsAreIdempotent : Obligations.CommandsAreIdempotent := by
  intro c s s' s'' h h'
  have hregs : s'.regs = (commandWrites c s.regs.flt).apply s.regs := by rw [present_eq_writes h]
  have hsame : (commandWrites c s'.regs.flt).apply s'.regs = s'.regs := by
    rw [hregs, RegWrites.apply_flt]
    rcases commandWrites_repeated c s.regs.flt with hw | hw <;> rw [hw]
    · exact RegWrites.apply_empty _
    · exact RegWrites.apply_apply _ _
  rw [present_eq_writes h', hsame]

end Sys2Proof.Machine
end

section
/-! PROOFS. The stream: the sixteen bits of a codeword in their order (R44), and the stream of a text, chunk by chunk (R41). -/

namespace Sys2Proof.Machine

open Sys2Proof.Spec

/-! ## The data bits of a codeword -/

/-- The parity generator writes parity slots only (R90). -/
theorem sameData_generateParity (w : Word) : SameData (generateParity w) w := by
  intro i hi
  rw [getLsbD_generateParity, getLsbD_withGroupParities]
  fin_cases hi <;> rfl

/-- A word carries a code point when data slot `j` holds data bit `j`, the most significant first (R9, R82). -/
theorem carriesData_iff (cp : Nat) (W : Word) :
    CarriesData cp W ↔ ∀ j < 11, W.getLsbD (DPOS.getD j 0) = cp.testBit (10 - j) := by
  constructor
  · rintro ⟨h0, h1, h2, h3, h4, h5, h6, h7, h8, h9, h10⟩ j hj
    interval_cases j <;> assumption
  · intro h
    exact ⟨h 0 (by decide), h 1 (by decide), h 2 (by decide), h 3 (by decide), h 4 (by decide), h 5 (by decide),
      h 6 (by decide), h 7 (by decide), h 8 (by decide), h 9 (by decide), h 10 (by decide)⟩

/-- The eleven data slots are slots of the word, and all different. -/
theorem dpos_slot : ∀ j < 11, DPOS.getD j 0 < 16 ∧ DPOS.getD j 0 ∈ DPOS ∧ DPOS.idxOf (DPOS.getD j 0) = j := by decide

/-- Placement puts the data bits of a code point at the data slots (R82). -/
theorem carriesData_placeData (cp : Nat) : CarriesData cp (placeData (BitVec.ofNat 11 cp)) := by
  rw [carriesData_iff]
  intro j hj
  obtain ⟨hslot, hmem, hidx⟩ := dpos_slot j hj
  have hbit : 10 - j < 11 := by omega
  rw [getLsbD_placeData _ _ hslot, hidx, List.contains_iff_mem.mpr hmem, dataBit, BitVec.getLsbD_ofNat, decide_eq_true hbit]
  rfl

/-- What a word carries is in its data slots alone. -/
theorem carriesData_of_sameData {cp : Nat} {V W : Word} (hVW : SameData V W) (hW : CarriesData cp W) : CarriesData cp V := by
  rw [carriesData_iff] at hW ⊢
  intro j hj
  obtain ⟨-, hmem, -⟩ := dpos_slot j hj
  rw [hVW _ hmem, hW j hj]

/-- A codeword carries the data bits of its code point (R85). -/
theorem carriesData_encodeData (cp : Nat) : CarriesData cp (encodeData (BitVec.ofNat 11 cp)) :=
  carriesData_of_sameData (sameData_generateParity _) (carriesData_placeData cp)

/-! ## The order of the bits -/

theorem leavesRes_enc {cp : Nat} (hcp : cp < 2048) : LeavesRes (.enc cp) (encodeData (BitVec.ofNat 11 cp)) := by
  intro s hs
  rw [exec_enc, if_pos hs, if_neg (Nat.not_le.mpr hcp)]
  rfl

theorem leavesDatChr_unpk (w : Word) : LeavesDatChr w (extractData w) (charOfData (extractData w)) := by
  intro s hs
  rw [exec_unpk, if_pos hs]
  rfl

/-- The character of a word, bit by bit: the low eight data bits, the last data slot least significant (R115, R116). -/
theorem getLsbD_charOfData_extractData (w : Word) (b : Nat) (hb : b < 8) :
    (charOfData (extractData w)).getLsbD b = w.getLsbD (DPOS.getD (10 - b) 0) := by
  rw [charOfData, BitVec.getLsbD_setWidth, decide_eq_true hb, Bool.true_and, getLsbD_extractData w b (by omega)]

/-- The stream of a word that carries a code point: the data bits most significant first, the parity slots at their
indices (R44). -/
theorem streamOfWord_of_carriesData {cp : Nat} {W : Word} (h : CarriesData cp W) :
    streamOfWord W = [W.getLsbD 0, W.getLsbD 1, W.getLsbD 2, cp.testBit 10, W.getLsbD 4, cp.testBit 9, cp.testBit 8,
      cp.testBit 7, W.getLsbD 8, cp.testBit 6, cp.testBit 5, cp.testBit 4, cp.testBit 3, cp.testBit 2, cp.testBit 1,
      cp.testBit 0] := by
  obtain ⟨h3, h5, h6, h7, h9, h10, h11, h12, h13, h14, h15⟩ := h
  rw [← h3, ← h5, ← h6, ← h7, ← h9, ← h10, ← h11, ← h12, ← h13, ← h14, ← h15]
  rfl

/-- Settles O47: a codeword carries its code point's data bits, and extraction reads the character from the same slots. -/
theorem streamOrderOfACodeword : Obligations.StreamOrderOfACodeword :=
  ⟨fun cp hcp => ⟨_, leavesRes_enc hcp, streamOfWord_of_carriesData (carriesData_encodeData cp)⟩,
    fun w => ⟨_, _, leavesDatChr_unpk w, getLsbD_charOfData_extractData w 0 (by decide),
      getLsbD_charOfData_extractData w 7 (by decide)⟩⟩

/-! ## The stream of a text -/

/-- A text has a stream when its first character has a codeword and the rest has a stream. -/
theorem encodedBits_cons_eq_some {c : Nat} {cs : List Nat} {S : List Bool} :
    encodedBits (c :: cs) = some S ↔
      ∃ w rest, encodeWord c = some w ∧ encodedBits cs = some rest ∧ S = streamOfWord w ++ rest := by
  rw [encodedBits]
  cases encodeWord c <;> cases encodedBits cs <;> simp [eq_comm]

theorem encodeText_eq_complete {text : List Nat} {S : List Bool} :
    encodeText text = .complete S ↔ encodedBits text = some S := by
  unfold encodeText
  cases encodedBits text <;> simp

/-- A stream has sixteen bits a character (R41). -/
theorem length_of_encodedBits {text : List Nat} {S : List Bool} (h : encodedBits text = some S) :
    S.length = 16 * text.length := by
  induction text generalizing S with
  | nil => cases h; rfl
  | cons c cs ih =>
    obtain ⟨w, rest, -, hrest, rfl⟩ := encodedBits_cons_eq_some.mp h
    rw [List.length_append, streamOfWord_length, ih hrest, List.length_cons]
    omega

/-- Chunk `k` of a stream is the codeword of character `k` (R41, R42). -/
theorem encodeWord_eq_chunk {text : List Nat} {S : List Bool} (h : encodedBits text = some S) (k : Nat)
    (hk : k < text.length) : encodeWord text[k] = some (chunk S k) := by
  induction text generalizing S k with
  | nil => cases hk
  | cons c cs ih =>
    obtain ⟨w, rest, hw, hrest, rfl⟩ := encodedBits_cons_eq_some.mp h
    cases k with
    | zero => rw [chunk_zero_append]; exact hw
    | succ k => rw [chunk_succ_append]; exact ih hrest k (Nat.lt_of_succ_lt_succ hk)

/-- Settles O50. -/
theorem streamChunksAreCodewords : Obligations.StreamChunksAreCodewords := by
  intro text S h
  have hbits : encodedBits text = some S := encodeText_eq_complete.mp h
  exact ⟨length_of_encodedBits hbits,
    fun k hk => ⟨text[k], List.getElem?_eq_getElem hk, encodeWord_eq_chunk hbits k hk⟩⟩

end Sys2Proof.Machine
end

section
/-! PROOFS. The command word and its decoder: the fields as numbers, decoding and encoding inverse to each other, one row for
every legal word, and the illegal words with their reasons (R60 to R73). -/

namespace Sys2Proof.Machine

open Sys2Proof.Spec

/-- Settles O22. -/
theorem decodeInvertsEncode : Obligations.DecodeInvertsEncode := decode_encode

/-! ## The fields as numbers -/

/-- A field of a command word is a slice of its number (R60). -/
theorem toNat_field (c : Cmd) (start width : Nat) :
    (c.extractLsb' start width).toNat = c.toNat / 2 ^ start % 2 ^ width := by
  rw [BitVec.extractLsb'_toNat, Nat.shiftRight_eq_div_pow]

/-- Settles O21: the four slices of a 32-bit number are its digits in a mixed radix. -/
theorem commandWordIsItsFields : Obligations.CommandWordIsItsFields := by
  intro c
  refine ⟨commandWord_fields c, ?_⟩
  have hc : c.toNat < 2 ^ 32 := c.isLt
  simp only [Cmd.op, Cmd.rsv, Cmd.len, Cmd.arg, Cmd.argHigh, Cmd.word, toNat_field]
  omega

/-! ## The word of a decoded command -/

/-- The command word with given fields is the command's encoding (R60). -/
theorem encode_eq_of_fields {i : Instr} {c : Cmd} (hop : Cmd.op c = i.opcode) (hrsv : Cmd.rsv c = 0)
    (hlen : Cmd.len c = i.lenField) (harg : Cmd.arg c = i.argField) : encode i = c := by
  rw [encode, ← hop, ← hrsv, ← hlen, ← harg, commandWord_fields]

/-- With `arg[20:16]` 0, `arg` is the word operand (R62 (b)). -/
theorem arg_eq_word {c : Cmd} (h : Cmd.argHigh c = 0) : Cmd.arg c = (Cmd.word c).setWidth 21 := by
  obtain ⟨-, -, hword, hhigh⟩ := commandWordIsItsFields c
  have hzero : (Cmd.argHigh c).toNat = 0 := by simp [h]
  apply BitVec.eq_of_toNat_eq
  rw [BitVec.toNat_setWidth, hword]
  omega

/-- What the word of a decoded command holds: each field is the command's own, and the operands fit them (R66, R68). -/
theorem fields_of_decode {c : Cmd} {i : Instr} (h : decode c = .ok i) :
    Cmd.op c = i.opcode ∧ Cmd.rsv c = 0 ∧ Cmd.len c = i.lenField ∧ Cmd.arg c = i.argField ∧ i.WellFormed := by
  have hcp : Cmd.arg c = BitVec.ofNat 21 (Cmd.codePoint c) := by simp [Cmd.codePoint]
  have hlen : Cmd.len c = BitVec.ofNat 5 (Cmd.chunkLength c) := by simp [Cmd.chunkLength]
  have hcpFits : codePointFits (Cmd.codePoint c) := (Cmd.arg c).isLt
  have hlenFits : chunkLengthFits (Cmd.chunkLength c) := (Cmd.len c).isLt
  rw [decode_by_fields] at h
  split_ifs at h with h0 h1 h2 h3 h4 h5 h6 h7 <;> cases h
  · obtain ⟨hop, hrsv, hl⟩ := h0
    exact ⟨hop, hrsv, hl, hcp, decide_eq_true hcpFits⟩
  · obtain ⟨hop, hrsv, hhigh⟩ := h1
    exact ⟨hop, hrsv, hlen, arg_eq_word hhigh, decide_eq_true hlenFits⟩
  · obtain ⟨hop, hrsv, hl⟩ := h2
    exact ⟨hop, hrsv, hl, hcp, decide_eq_true hcpFits⟩
  · obtain ⟨hop, hrsv, hl, hhigh⟩ := h3
    exact ⟨hop, hrsv, hl, arg_eq_word hhigh, rfl⟩
  · obtain ⟨hop, hrsv, hl, hhigh⟩ := h4
    exact ⟨hop, hrsv, hl, arg_eq_word hhigh, rfl⟩
  · obtain ⟨hop, hrsv, hl, hhigh⟩ := h5
    exact ⟨hop, hrsv, hl, arg_eq_word hhigh, rfl⟩
  · obtain ⟨hop, hrsv, hl, hhigh⟩ := h6
    exact ⟨hop, hrsv, hl, arg_eq_word hhigh, rfl⟩
  · obtain ⟨hop, hrsv, hl, harg⟩ := h7
    exact ⟨hop, hrsv, hl, harg, rfl⟩

/-- Settles O23: a word that decodes holds the fields of the command, so building it from them gives it back. -/
theorem encodeInvertsDecode : Obligations.EncodeInvertsDecode := by
  intro c i h
  obtain ⟨hop, hrsv, hlen, harg, hwf⟩ := fields_of_decode h
  exact ⟨hwf, encode_eq_of_fields hop hrsv hlen harg⟩

/-! ## The row of a word -/

/-- Every mask covers the `op` field, so a row that selects a word has its `op` in the pattern, and nothing else (R66). -/
theorem pattern_of_selects {c : Cmd} {r : OpcodeRow} (hr : r ∈ opcodeTable) (h : r.selects c = true) :
    r.pattern = c &&& 0xE0000000#32 := by
  have hrow : ∀ r ∈ opcodeTable, r.mask &&& 0xE0000000#32 = 0xE0000000#32 ∧ r.pattern &&& 0xE0000000#32 = r.pattern := by
    decide
  obtain ⟨hmask, hpattern⟩ := hrow r hr
  rw [← hpattern, ← eq_of_beq h, BitVec.and_assoc, hmask]

/-- At most one row selects a word (R67). -/
theorem row_unique {c : Cmd} {r r' : OpcodeRow} (hr : r ∈ opcodeTable) (hr' : r' ∈ opcodeTable)
    (h : r.selects c = true) (h' : r'.selects c = true) : r = r' := by
  have hnodup : (opcodeTable.map OpcodeRow.pattern).Nodup := by decide
  exact List.inj_on_of_nodup_map hnodup hr hr' ((pattern_of_selects hr h).trans (pattern_of_selects hr' h').symm)

/-- A word is rejected exactly when no row selects it (R67). -/
theorem decode_error_iff (c : Cmd) : (∃ why, decode c = .error why) ↔ ∀ r ∈ opcodeTable, r.selects c = false := by
  constructor
  · rintro ⟨why, hwhy⟩
    exact decode_error c why hwhy
  · intro hnone
    cases hd : decode c with
    | error why => exact ⟨why, rfl⟩
    | ok i =>
      obtain ⟨r, hr, hsel, -⟩ := decode_ok c i hd
      simp [hnone r hr] at hsel

/-- The row that selects a word gives its command (R66). -/
theorem decode_of_selects {c : Cmd} {r : OpcodeRow} (hr : r ∈ opcodeTable) (h : r.selects c = true) :
    decode c = .ok (r.read c) := by
  cases hd : decode c with
  | error why => simp [decode_error c why hd r hr] at h
  | ok i =>
    obtain ⟨r', hr', h', rfl⟩ := decode_ok c i hd
    rw [row_unique hr hr' h h']

/-- A row reads the command that it is named after. -/
theorem mnemonic_read {r : OpcodeRow} (hr : r ∈ opcodeTable) (c : Cmd) : (r.read c).mnemonic = r.mnemonic := by
  fin_cases hr <;> rfl

/-- An illegal word, presented to a block that accepts commands, records ILLC and does nothing else (R67, R164). -/
theorem present_of_decode_error {c : Cmd} {why : IllegalWord} {s : State} (hs : s.Ready) (h : decode c = .error why) :
    present c s = .next (withRegs s { s.regs with flt := .illc }) := by
  obtain ⟨hreset, hflt⟩ := hs
  unfold present
  rw [step_command s c hreset]
  rcases runCommand_cases s c with ⟨hne, -, -⟩ | ⟨-, -, hrun⟩ | ⟨-, i, hi, -⟩
  · exact absurd hflt hne
  · exact hrun
  · cases h.symm.trans hi

/-- Settles O24: the decoder's answer is that of the only row that selects the word, or an error when there is none. -/
theorem opcodeMapDecidesEveryWord : Obligations.OpcodeMapDecidesEveryWord := by
  intro c
  refine ⟨fun r hr r' hr' h h' => by rw [row_unique hr hr' h h'],
    fun r hr h => ⟨decode_of_selects hr h, mnemonic_read hr c⟩, fun hnone => ?_⟩
  obtain ⟨why, hwhy⟩ := (decode_error_iff c).mpr hnone
  exact ⟨⟨why, hwhy⟩, fun s hs => present_of_decode_error hs hwhy⟩

/-! ## The illegal words -/

/-- The decoder rejects a word with the reason that `illegalReason` names. -/
theorem eq_illegalReason {c : Cmd} {why : IllegalWord} (h : decode c = .error why) : why = illegalReason c := by
  rw [decode_by_fields] at h
  split_ifs at h
  cases h
  rfl

/-- A rejected word whose `rsv` and `len` are as its operation wants them is rejected for its `arg`, so it has a word operand or
is a CLRF (R66). -/
theorem operand_of_decode_error {c : Cmd} {why : IllegalWord} (h : decode c = .error why) (hrsv : Cmd.rsv c = 0)
    (hlen : Cmd.op c ≠ 1 → Cmd.len c = 0) :
    (Cmd.op c ∈ [1, 3, 4, 5, 6] ∧ Cmd.argHigh c ≠ 0) ∨ (Cmd.op c = 7 ∧ Cmd.arg c ≠ 0) := by
  have hops : ∀ o : BitVec 3, o ∈ [0, 2] ∨ o ∈ [1, 3, 4, 5, 6] ∨ o = 7 := by decide
  rw [decode_by_fields] at h
  split_ifs at h with h0 h1 h2 h3 h4 h5 h6 h7
  rcases hops (Cmd.op c) with hop | hop | hop
  · simp only [List.mem_cons, List.not_mem_nil, or_false] at hop
    rcases hop with hop | hop <;> simp_all
  · refine .inl ⟨hop, fun hhigh => ?_⟩
    simp only [List.mem_cons, List.not_mem_nil, or_false] at hop
    rcases hop with hop | hop | hop | hop | hop <;> simp_all
  · exact .inr ⟨hop, fun harg => h7 ⟨hop, hrsv, hlen (by simp [hop]), harg⟩⟩

/-- Settles O26: the first two cases are the tests of `illegalReason` themselves, and a word that passes both is rejected for its
`arg`. -/
theorem illegalReasonHolds : Obligations.IllegalReasonHolds := by
  intro c why h
  have hwhy := eq_illegalReason h
  unfold illegalReason at hwhy
  split_ifs at hwhy with hrsv hlen hop <;> subst hwhy
  · exact hrsv
  · exact hlen
  · exact (operand_of_decode_error h (of_not_not hrsv) (by tauto)).resolve_right fun h7 => hop h7.1
  · exact (operand_of_decode_error h (of_not_not hrsv) (by tauto)).resolve_left fun hw => by simp_all

/-- The four cases of R68. -/
def IsIllegal (c : Cmd) : Prop :=
  Cmd.rsv c ≠ 0 ∨ (Cmd.op c ∈ [0, 2, 3, 4, 5, 6, 7] ∧ Cmd.len c ≠ 0) ∨ (Cmd.op c ∈ [1, 3, 4, 5, 6] ∧ Cmd.argHigh c ≠ 0) ∨
    (Cmd.op c = 7 ∧ Cmd.arg c ≠ 0)

/-- `arg[20:16]` of a word operand is 0. -/
theorem argHigh_eq_zero {c : Cmd} {w : Word} (h : Cmd.arg c = w.setWidth 21) : Cmd.argHigh c = 0 := by
  rw [argHigh_eq_arg, h]
  ext i
  simp

/-- A word that decodes is in none of the four cases: its fields are its command's (R68). -/
theorem not_isIllegal_of_decode {c : Cmd} {i : Instr} (h : decode c = .ok i) : ¬ IsIllegal c := by
  obtain ⟨hop, hrsv, hlen, harg, -⟩ := fields_of_decode h
  unfold IsIllegal
  rw [hop, hrsv, hlen]
  cases i with
  | enc cp => simp [Instr.opcode, Instr.lenField]
  | pack cp => simp [Instr.opcode, Instr.lenField]
  | dec w len => simp [Instr.opcode, argHigh_eq_zero harg]
  | pgen w => simp [Instr.opcode, Instr.lenField, argHigh_eq_zero harg]
  | synd w => simp [Instr.opcode, Instr.lenField, argHigh_eq_zero harg]
  | corr w => simp [Instr.opcode, Instr.lenField, argHigh_eq_zero harg]
  | unpk w => simp [Instr.opcode, Instr.lenField, argHigh_eq_zero harg]
  | clrf => simp [Instr.opcode, Instr.lenField, harg, Instr.argField]

/-- A word that is rejected is in the case that the decoder names (R68). -/
theorem isIllegal_of_decode_error {c : Cmd} {why : IllegalWord} (h : decode c = .error why) : IsIllegal c := by
  have hops : ∀ o : BitVec 3, o ≠ 1 → o ∈ [0, 2, 3, 4, 5, 6, 7] := by decide
  have hreason := illegalReasonHolds c why h
  unfold IsIllegal
  cases why with
  | reservedBitsSet => exact .inl hreason
  | lengthFieldUnused => exact .inr (.inl ⟨hops _ hreason.1, hreason.2⟩)
  | wordOperandTooWide => exact .inr (.inr (.inl hreason))
  | clrfArgumentSet => exact .inr (.inr (.inr hreason))

theorem decode_error_iff_isIllegal (c : Cmd) : (∃ why, decode c = .error why) ↔ IsIllegal c := by
  constructor
  · rintro ⟨why, hwhy⟩
    exact isIllegal_of_decode_error hwhy
  · intro hill
    cases hd : decode c with
    | error why => exact ⟨why, rfl⟩
    | ok i => exact absurd hill (not_isIllegal_of_decode hd)

/-- Settles O25. -/
theorem illegalWordsAreTheFourCases : Obligations.IllegalWordsAreTheFourCases := by
  refine ⟨decode_error_iff_isIllegal, ?_, by decide, _, rfl⟩
  rintro s c hs ⟨why, hwhy⟩
  exact present_of_decode_error hs hwhy

/-- The four rejected words of R73. -/
theorem workedIllegalWords :
    ∀ c ∈ [0x04000041#32, 0x00200041#32, 0x80018234#32, 0xE0000001#32], ∃ why, decode c = .error why := by
  intro c hc
  fin_cases hc <;> exact ⟨_, rfl⟩

/-- Settles O27: each clause but the last is a computation on one fixed word. -/
theorem workedEncodingsDecode : Obligations.WorkedEncodingsDecode := by
  unfold Obligations.WorkedEncodingsDecode
  and_intros
  on_goal 21 => exact workedIllegalWords
  all_goals decide

end Sys2Proof.Machine
end

section
/-! PROOFS. The written form of a command (R70, R71 (a)): what each operand is read from, where the first operand of DEC ends,
and that every written command reads as the command. -/

namespace Sys2Proof.Machine

/-! ## Digits -/

/-- Every symbol of a number that reads in a base is a digit of it. -/
theorem digitOfSymbol_ne_none {b : Nat} {cs : List Char} {n m : Nat} (h : readDigits b cs n = some m) {c : Char}
    (hc : c ∈ cs) : digitOfSymbol b c ≠ none := by
  induction cs generalizing n with
  | nil => simp at hc
  | cons x xs ih =>
    obtain ⟨d, hd, hrest⟩ := Option.bind_eq_some_iff.mp h
    rcases List.mem_cons.mp hc with rfl | hc
    · simp [hd]
    · exact ih hrest hc

/-- A symbol that is no digit of a base is not among the digits of a number. -/
theorem notMem_toDigits {b : Nat} (n : Nat) (h1 : 1 < b) (hb : b ≤ 16) {c : Char} (hc : digitOfSymbol b c = none) :
    c ∉ Nat.toDigits b n :=
  fun hmem => digitOfSymbol_ne_none (readDigits_toDigits b n h1 hb) hmem hc

theorem readNumber_hex_toDigits (n : Nat) : readNumber ('0' :: 'x' :: Nat.toDigits 16 n) = some n := by
  rw [readNumber_hex _ Nat.toDigits_ne_nil, readDigits_toDigits 16 n (by decide) (by decide)]

/-! ## Operands -/

theorem readCodePoint_of_readNumber {cs : List Char} {cp : Nat} (h : readNumber cs = some cp) (hcp : codePointFits cp) :
    readCodePoint cs = some cp := by
  simp [readCodePoint, h, hcp]

theorem readCodePoint_toDigits {cp : Nat} (hcp : codePointFits cp) : readCodePoint (Nat.toDigits 10 cp) = some cp :=
  readCodePoint_of_readNumber (readNumber_toDigits cp) hcp

theorem readLength_of_readNumber {cs : List Char} {len : Nat} (h : readNumber cs = some len) (hlen : chunkLengthFits len) :
    readLength cs = some len := by
  simp [readLength, h, hlen]

/-- A number that names a word reads as the word: no number starts with the double quote of a string form (R70). -/
theorem readWord_of_readNumber {cs : List Char} {w : Word} (h : readNumber cs = some w.toNat) : readWord cs = some w := by
  unfold readWord
  split
  · cases h
  · simp [h, w.isLt]

/-- The string form in double quotes reads as the word (R8 (a), R70). -/
theorem readWord_stringForm (w : Word) : readWord ('"' :: (stringForm w ++ ['"'])) = some w := by
  simp [readWord]

theorem readWord_toDigits (w : Word) : readWord (Nat.toDigits 10 w.toNat) = some w :=
  readWord_of_readNumber (readNumber_toDigits _)

/-- The symbols that `hexText` writes. -/
theorem toList_hexText (digits n : Nat) :
    (hexText digits n).toList =
      '0' :: 'x' :: (List.range digits).reverse.map fun k => digitSymbol (n / 16 ^ k % 16) := by
  simp [hexText]

/-- The hexadecimal form of a word reads as the word (R8 (c), R70). -/
theorem readWord_hexText (w : Word) : readWord (hexText 4 w.toNat).toList = some w := by
  have hw : w.toNat % 16 ^ 4 = w.toNat := Nat.mod_eq_of_lt w.isLt
  apply readWord_of_readNumber
  rw [toList_hexText, readNumber_hex _ (by simp), readDigits_hexDigits, hw]

/-- A character's scalar value fits the code-point field, which is wider than Unicode. -/
theorem codePointFits_char (c : Char) : codePointFits c.toNat := by
  have hvalid : c.toNat < 0xD800 ∨ 0xDFFF < c.toNat ∧ c.toNat < 0x110000 := c.valid
  show c.toNat < 2 ^ 21
  omega

/-- A character in single quotes reads as its code point (R70, log 17). -/
theorem readCodePoint_quoted (c : Char) : readCodePoint ['\'', c, '\''] = some c.toNat :=
  readCodePoint_of_readNumber rfl (codePointFits_char c)

/-! ## The operands of DEC -/

theorem comma_notMem_toDigits (n : Nat) : ',' ∉ Nat.toDigits 10 n :=
  notMem_toDigits n (by decide) (by decide) (by decide)

theorem space_notMem_toDigits (n : Nat) : ' ' ∉ Nat.toDigits 10 n :=
  notMem_toDigits n (by decide) (by decide) (by decide)

theorem space_notMem_hex (n : Nat) : ' ' ∉ '0' :: 'x' :: Nat.toDigits 16 n := by
  have hdigits : ' ' ∉ Nat.toDigits 16 n := notMem_toDigits n (by decide) (by decide) (by decide)
  simpa using hdigits

theorem comma_notMem_stringForm (w : Word) : ',' ∉ '"' :: (stringForm w ++ ['"']) := by
  have hsymbol (b : Bool) : symbolOfBit b ≠ ',' := by cases b <;> decide
  simp [stringForm, hsymbol]

theorem comma_notMem_hexText (n : Nat) : ',' ∉ (hexText 4 n).toList := by
  have hread := readDigits_hexDigits 4 n
  rw [toList_hexText]
  simp only [List.mem_cons, not_or]
  exact ⟨by decide, by decide, fun h => digitOfSymbol_ne_none hread h (by decide)⟩

theorem firstOperand_of_ne_quote {c : Char} (hc : c ≠ '\'') (cs : List Char) :
    firstOperand (c :: cs) = (c :: cs).takeWhile (· != ',') := by
  unfold firstOperand
  split
  · next heq => exact absurd (List.cons.inj heq).1 hc
  · rfl

/-- A written word is the first operand when the line ends after it or a comma follows. A lone single quote, after which a comma
would be a quoted character, is no word. -/
theorem firstOperand_append {cs tail : List Char} {w : Word} (hw : readWord cs = some w) (hcomma : ',' ∉ cs)
    (htail : tail.takeWhile (· != ',') = []) : firstOperand (cs ++ tail) = cs := by
  have htake {l : List Char} (hl : ',' ∉ l) : (l ++ tail).takeWhile (· != ',') = l := by
    rw [List.takeWhile_append_of_pos, htail, List.append_nil]
    intro a ha
    simpa using ne_of_mem_of_not_mem ha hl
  rcases cs with _ | ⟨c, rest⟩
  · cases hw
  · by_cases hc : c = '\''
    · subst hc
      rcases rest with _ | ⟨d, rest⟩
      · cases hw
      · have hrest : ',' ∉ rest := fun h => hcomma (by simp [h])
        exact congrArg ('\'' :: d :: ·) (htake hrest)
    · rw [List.cons_append, firstOperand_of_ne_quote hc]
      exact htake hcomma

/-- A word alone means a length of 16 (R71 (a)). -/
theorem readChunk_word {cs : List Char} {w : Word} (hw : readWord cs = some w) (hcomma : ',' ∉ cs) :
    readChunk cs = some (.dec w 16) := by
  have hfirst : firstOperand cs = cs := by simpa using firstOperand_append (tail := []) hw hcomma rfl
  simp [readChunk, hfirst, hw, Instr.decChunk]

/-- A word, a comma, a space and a length. -/
theorem readChunk_word_length {cs ls : List Char} {w : Word} {len : Nat} (hw : readWord cs = some w) (hcomma : ',' ∉ cs)
    (hspace : ' ' ∉ ls) (hn : readNumber ls = some len) (hlen : chunkLengthFits len) :
    readChunk (cs ++ ',' :: ' ' :: ls) = some (.dec w len) := by
  have hfirst : firstOperand (cs ++ ',' :: ' ' :: ls) = cs := firstOperand_append hw hcomma rfl
  have hdrop : (' ' :: ls).dropWhile (· == ' ') = ls := by
    rw [List.dropWhile_cons_of_pos rfl, List.dropWhile_eq_self_iff]
    intro hl
    simpa using ne_of_mem_of_not_mem (List.getElem_mem hl) hspace
  simp only [readChunk, hfirst, List.drop_left, hw, Option.bind_some, hdrop, readLength_of_readNumber hn hlen, Option.map_some]

/-! ## Lines -/

section
variable (cs : List Char)

theorem readCommand_enc : readCommand ('E' :: 'N' :: 'C' :: ' ' :: cs) = (readCodePoint cs).map .enc := rfl
theorem readCommand_pack : readCommand ('P' :: 'A' :: 'C' :: 'K' :: ' ' :: cs) = (readCodePoint cs).map .pack := rfl
theorem readCommand_pgen : readCommand ('P' :: 'G' :: 'E' :: 'N' :: ' ' :: cs) = (readWord cs).map .pgen := rfl
theorem readCommand_synd : readCommand ('S' :: 'Y' :: 'N' :: 'D' :: ' ' :: cs) = (readWord cs).map .synd := rfl
theorem readCommand_corr : readCommand ('C' :: 'O' :: 'R' :: 'R' :: ' ' :: cs) = (readWord cs).map .corr := rfl
theorem readCommand_unpk : readCommand ('U' :: 'N' :: 'P' :: 'K' :: ' ' :: cs) = (readWord cs).map .unpk := rfl
theorem readCommand_dec : readCommand ('D' :: 'E' :: 'C' :: ' ' :: cs) = readChunk cs := rfl

end

/-- The two commands with a code point, whatever its written form. -/
theorem readCommand_of_readCodePoint {cs : List Char} {cp : Nat} (h : readCodePoint cs = some cp) :
    readCommand ('E' :: 'N' :: 'C' :: ' ' :: cs) = some (.enc cp) ∧
    readCommand ('P' :: 'A' :: 'C' :: 'K' :: ' ' :: cs) = some (.pack cp) := by
  simp [readCommand_enc, readCommand_pack, h]

/-- The five commands with a word, whatever its written form; DEC takes it as a whole chunk (R71 (a)). -/
theorem readCommand_of_readWord {cs : List Char} {w : Word} (h : readWord cs = some w) (hcomma : ',' ∉ cs) :
    readCommand ('P' :: 'G' :: 'E' :: 'N' :: ' ' :: cs) = some (.pgen w) ∧
    readCommand ('S' :: 'Y' :: 'N' :: 'D' :: ' ' :: cs) = some (.synd w) ∧
    readCommand ('C' :: 'O' :: 'R' :: 'R' :: ' ' :: cs) = some (.corr w) ∧
    readCommand ('U' :: 'N' :: 'P' :: 'K' :: ' ' :: cs) = some (.unpk w) ∧
    readCommand ('D' :: 'E' :: 'C' :: ' ' :: cs) = some (.dec w 16) := by
  simp [readCommand_pgen, readCommand_synd, readCommand_corr, readCommand_unpk, readCommand_dec, h, readChunk_word h hcomma]

/-- DEC with both operands, whatever the written form of each. -/
theorem readCommand_dec_length {cs ls : List Char} {w : Word} {len : Nat} (hw : readWord cs = some w) (hcomma : ',' ∉ cs)
    (hspace : ' ' ∉ ls) (hn : readNumber ls = some len) (hlen : chunkLengthFits len) :
    readCommand ('D' :: 'E' :: 'C' :: ' ' :: (cs ++ ',' :: ' ' :: ls)) = some (.dec w len) := by
  rw [readCommand_dec, readChunk_word_length hw hcomma hspace hn hlen]

/-- Every command reads back from the line that is written for it (R70). -/
theorem readCommand_commandText {i : Instr} (hi : i.WellFormed) : readCommand (commandText i).toList = some i := by
  cases i with
  | enc cp => simp [commandText, Instr.mnemonic, readCommand_enc, readCodePoint_toDigits (of_decide_eq_true hi)]
  | pack cp => simp [commandText, Instr.mnemonic, readCommand_pack, readCodePoint_toDigits (of_decide_eq_true hi)]
  | dec w len =>
    simpa [commandText, Instr.mnemonic] using readCommand_dec_length (readWord_hexText w) (comma_notMem_hexText _)
      (space_notMem_toDigits len) (readNumber_toDigits len) (of_decide_eq_true hi)
  | pgen w => simp [commandText, Instr.mnemonic, readCommand_pgen, readWord_hexText]
  | synd w => simp [commandText, Instr.mnemonic, readCommand_synd, readWord_hexText]
  | corr w => simp [commandText, Instr.mnemonic, readCommand_corr, readWord_hexText]
  | unpk w => simp [commandText, Instr.mnemonic, readCommand_unpk, readWord_hexText]
  | clrf => rfl

/-- Settles O49: a line is read operand by operand, and each operand in any of its written forms. -/
theorem writtenCommandsRead : Obligations.WrittenCommandsRead := by
  refine ⟨fun i hi => readCommand_commandText hi, fun w => ?_, fun w len hlen => ?_, fun w => ?_, fun cp hcp => ?_,
    fun c => ?_, ?_, ?_, ?_, ?_⟩
  · exact readCommand_of_readWord (readWord_stringForm w) (comma_notMem_stringForm w)
  · constructor
    · simpa using readCommand_dec_length (readWord_stringForm w) (comma_notMem_stringForm w)
        (space_notMem_toDigits len) (readNumber_toDigits len) hlen
    · simpa using readCommand_dec_length (readWord_toDigits w) (comma_notMem_toDigits _)
        (space_notMem_hex len) (readNumber_hex_toDigits len) hlen
  · exact readCommand_of_readWord (readWord_toDigits w) (comma_notMem_toDigits _)
  · exact readCommand_of_readCodePoint (readCodePoint_of_readNumber (readNumber_hex_toDigits cp) hcp)
  · exact readCommand_of_readCodePoint (readCodePoint_quoted c)
  all_goals decide

end Sys2Proof.Machine
end

section
/-! PROOFS. The five parity equations of a codeword (R83, R84) against the model's loops: a word is valid exactly when they hold,
its data slots then fix it, and the parity generator gives the valid word of any data slots. -/

namespace Sys2Proof.Machine

open Sys2Proof.Spec

/-! ## The equations as parities of slots -/

/-- The data slots of group `k`, whose parity is at slot `2 ^ k` (R83). -/
def groupSlots : Nat → List Nat
  | 0 => G1
  | 1 => G2
  | 2 => G4
  | _ => G8

/-- Group `k` and its parity slot are the slots whose index has bit `k` set (R83, R110). -/
theorem filter_testBit_allSlots :
    ∀ k < 4, (allSlots.filter fun i => i.testBit k) = 2 ^ k :: groupSlots k := by decide

theorem groupSlots_subset : ∀ k < 4, groupSlots k ⊆ DPOS := by decide

/-- R83: each group slot holds the parity of its group. -/
theorem groupEquations_iff (w : Word) :
    GroupEquations w ↔ ∀ k < 4, w.getLsbD (2 ^ k) = parity (bitsAt w (groupSlots k)) := by
  have hfour : GroupEquations w ↔ w.getLsbD 1 = parity (bitsAt w G1) ∧ w.getLsbD 2 = parity (bitsAt w G2) ∧
      w.getLsbD 4 = parity (bitsAt w G4) ∧ w.getLsbD 8 = parity (bitsAt w G8) := by
    simp only [GroupEquations, bitsAt, G1, G2, G4, G8, List.map_cons, List.map_nil, parity_cons, parity_nil, Bool.xor_assoc,
      Bool.xor_false]
  rw [hfour]
  constructor
  · rintro ⟨h1, h2, h4, h8⟩ k hk
    interval_cases k <;> assumption
  · intro h
    exact ⟨h 0 (by decide), h 1 (by decide), h 2 (by decide), h 3 (by decide)⟩

/-- R84: slot 0 holds the parity of the other fifteen. -/
theorem overallEquation_iff (w : Word) :
    OverallEquation w ↔ w.getLsbD 0 = parity (bitsAt w (List.range' 1 15)) := by
  simp only [OverallEquation, bitsAt, List.range', List.map_cons, List.map_nil, parity_cons, parity_nil, Bool.xor_assoc,
    Bool.xor_false, Nat.reduceAdd]

/-- The slots `i :: l` have parity 0 when slot `i` holds the parity of the others. -/
theorem parity_bitsAt_cons_eq_false_iff (w : Word) (i : Nat) (l : List Nat) :
    parity (bitsAt w (i :: l)) = false ↔ w.getLsbD i = parity (bitsAt w l) := by
  simp [bitsAt]

/-- Bit `k` of the syndrome is 0 exactly when group equation `k` holds (R110). -/
theorem getLsbD_syndrome_eq_false_iff (w : Word) (k : Nat) (hk : k < 4) :
    (syndrome w).getLsbD k = false ↔ w.getLsbD (2 ^ k) = parity (bitsAt w (groupSlots k)) := by
  rw [getLsbD_syndrome w k hk, filter_testBit_allSlots k hk, parity_bitsAt_cons_eq_false_iff]

/-- R110: the syndrome is 0 exactly when the four group equations hold. -/
theorem syndrome_eq_zero_iff (w : Word) : syndrome w = 0 ↔ GroupEquations w := by
  rw [groupEquations_iff]
  constructor
  · intro h k hk
    rw [← getLsbD_syndrome_eq_false_iff w k hk, h]
    exact BitVec.getLsbD_zero
  · intro h
    apply BitVec.eq_of_getLsbD_eq
    intro k hk
    rw [(getLsbD_syndrome_eq_false_iff w k hk).mpr (h k hk)]
    exact BitVec.getLsbD_zero.symm

/-- R111: the overall parity is 0 exactly when the overall equation holds. -/
theorem overallParity_eq_false_iff (w : Word) : overallParity w = false ↔ OverallEquation w := by
  have hslots : allSlots = 0 :: List.range' 1 15 := by decide
  rw [overallParity, hslots, parity_bitsAt_cons_eq_false_iff, overallEquation_iff]

theorem validCodeword_iff (w : Word) : validCodeword w = true ↔ syndrome w = 0 ∧ overallParity w = false := by
  simp [validCodeword]

/-- R13: a word is a valid codeword exactly when the five equations hold. -/
theorem validCodeword_iff_equations (w : Word) : validCodeword w = true ↔ GroupEquations w ∧ OverallEquation w := by
  rw [validCodeword_iff, syndrome_eq_zero_iff, overallParity_eq_false_iff]

/-! ## Words with the same data slots -/

theorem sameData_symm {v w : Word} (h : SameData v w) : SameData w v := fun i hi => (h i hi).symm

theorem sameData_trans {u v w : Word} (huv : SameData u v) (hvw : SameData v w) : SameData u w :=
  fun i hi => (huv i hi).trans (hvw i hi)

/-- Slots that two words agree on have one parity. -/
theorem bitsAt_congr {v w : Word} {l : List Nat} (h : ∀ i ∈ l, v.getLsbD i = w.getLsbD i) : bitsAt v l = bitsAt w l :=
  List.map_congr_left h

/-- Each group lies in the data slots (R83). -/
theorem bitsAt_groupSlots_congr {v w : Word} (h : SameData v w) {k : Nat} (hk : k < 4) :
    bitsAt v (groupSlots k) = bitsAt w (groupSlots k) :=
  bitsAt_congr fun i hi => h i (groupSlots_subset k hk hi)

/-- Every slot is a data slot, a group slot or slot 0 (R11). -/
theorem slot_cases : ∀ i < 16, i ∈ DPOS ∨ (∃ k < 4, i = 2 ^ k) ∨ i = 0 := by decide

/-- The data slots of a valid codeword fix it: the group equations give slots 1, 2, 4, 8, and then the overall equation gives
slot 0. -/
theorem eq_of_sameData_of_validCodeword {v w : Word} (h : SameData v w) (hv : validCodeword v = true)
    (hw : validCodeword w = true) : v = w := by
  obtain ⟨hgv, hov⟩ := (validCodeword_iff_equations v).mp hv
  obtain ⟨hgw, how⟩ := (validCodeword_iff_equations w).mp hw
  rw [groupEquations_iff] at hgv hgw
  rw [overallEquation_iff] at hov how
  have hrest : ∀ i < 16, i ≠ 0 → v.getLsbD i = w.getLsbD i := by
    intro i hi hne
    rcases slot_cases i hi with hdata | ⟨k, hk, rfl⟩ | rfl
    · exact h i hdata
    · rw [hgv k hk, hgw k hk, bitsAt_groupSlots_congr h hk]
    · exact absurd rfl hne
  have hzero : v.getLsbD 0 = w.getLsbD 0 := by
    have hothers : bitsAt v (List.range' 1 15) = bitsAt w (List.range' 1 15) := by
      apply bitsAt_congr
      intro i hi
      rw [List.mem_range'_1] at hi
      exact hrest i (by omega) (by omega)
    rw [hov, how, hothers]
  apply word_ext
  intro i hi
  by_cases hi0 : i = 0
  · rw [hi0, hzero]
  · exact hrest i hi hi0

/-! ## The parity generator -/

/-- Slot 0 of the generated word is the parity of its other slots, which are those of the word with its group parities. -/
theorem overallEquation_generateParity (w : Word) : OverallEquation (generateParity w) := by
  have hrest : bitsAt (generateParity w) (List.range' 1 15) = bitsAt (withGroupParities w) (List.range' 1 15) := by
    apply bitsAt_congr
    intro i hi
    rw [List.mem_range'_1] at hi
    rw [getLsbD_generateParity, if_neg (by omega)]
  rw [overallEquation_iff, hrest, getLsbD_generateParity, if_pos rfl]

/-- The group slots of the generated word are the parities of the groups, which it keeps. -/
theorem groupEquations_generateParity (w : Word) : GroupEquations (generateParity w) := by
  rw [groupEquations_iff]
  intro k hk
  rw [bitsAt_groupSlots_congr (sameData_generateParity w) hk, getLsbD_generateParity, getLsbD_withGroupParities]
  interval_cases k <;> rfl

/-- R90: the result of the parity generator is always a valid codeword. -/
theorem validCodeword_generateParity (w : Word) : validCodeword (generateParity w) = true :=
  (validCodeword_iff_equations _).mpr ⟨groupEquations_generateParity w, overallEquation_generateParity w⟩

/-- The parity generator gives the one valid codeword with the data slots of its operand. -/
theorem eq_generateParity_iff (w W : Word) : W = generateParity w ↔ SameData w W ∧ validCodeword W = true := by
  constructor
  · rintro rfl
    exact ⟨sameData_symm (sameData_generateParity w), validCodeword_generateParity w⟩
  · rintro ⟨hdata, hvalid⟩
    exact eq_of_sameData_of_validCodeword (sameData_symm (sameData_trans (sameData_generateParity w) hdata)) hvalid
      (validCodeword_generateParity w)

/-- The parity generator looks at the data slots alone. -/
theorem generateParity_congr {v w : Word} (h : SameData v w) : generateParity v = generateParity w :=
  (eq_generateParity_iff w _).mpr ⟨sameData_symm (sameData_trans (sameData_generateParity v) h), validCodeword_generateParity v⟩

/-- The valid codewords are the words that the parity generator leaves as they are. -/
theorem generateParity_eq_self_iff (w : Word) : generateParity w = w ↔ validCodeword w = true := by
  rw [eq_comm, eq_generateParity_iff]
  exact and_iff_right fun _ _ => rfl

/-! ## Placement and extraction -/

/-- Extraction undoes placement. -/
theorem extractData_placeData (d : DataBits) : extractData (placeData d) = d := by
  apply BitVec.eq_of_getLsbD_eq
  intro b hb
  obtain ⟨hslot, hmem, hidx⟩ := dpos_slot (10 - b) (by omega)
  rw [getLsbD_extractData _ _ hb, getLsbD_placeData _ _ hslot, hidx, List.contains_iff_mem.mpr hmem, dataBit,
    Nat.sub_sub_self (by omega : b ≤ 10), Bool.true_and]

/-- Extraction looks at the data slots alone (R115). -/
theorem extractData_congr {v w : Word} (h : SameData v w) : extractData v = extractData w := by
  apply BitVec.eq_of_getLsbD_eq
  intro b hb
  obtain ⟨-, hmem, -⟩ := dpos_slot (10 - b) (by omega)
  rw [getLsbD_extractData _ _ hb, getLsbD_extractData _ _ hb, h _ hmem]

/-- Placing the data bits of a word restores its data slots. -/
theorem sameData_placeData_extractData (w : Word) : SameData (placeData (extractData w)) w := by
  intro i (hi : i ∈ DPOS)
  have hslots : ∀ i ∈ DPOS, i < 16 ∧ DPOS.idxOf i ≤ 10 ∧ DPOS.getD (DPOS.idxOf i) 0 = i := by decide
  obtain ⟨hslot, hidx, hget⟩ := hslots i hi
  have hbit : 10 - DPOS.idxOf i < 11 := by omega
  rw [getLsbD_placeData _ _ hslot, List.contains_iff_mem.mpr hi, dataBit, getLsbD_extractData _ _ hbit,
    Nat.sub_sub_self hidx, hget, Bool.true_and]

/-- Extraction undoes the encoder. -/
theorem extractData_encodeData (d : DataBits) : extractData (encodeData d) = d := by
  rw [encodeData, extractData_congr (sameData_generateParity _), extractData_placeData]

/-- Encoding the data bits of a word is recomputing its parity slots (R91). -/
theorem encodeData_extractData (w : Word) : encodeData (extractData w) = generateParity w :=
  generateParity_congr (sameData_placeData_extractData w)

theorem validCodeword_encodeData (d : DataBits) : validCodeword (encodeData d) = true := validCodeword_generateParity _

/-- The encoder's word for a code point is its codeword (R85). -/
theorem isCodeword_encodeData (cp : Nat) : IsCodeword cp (encodeData (BitVec.ofNat 11 cp)) :=
  ⟨carriesData_encodeData cp, (validCodeword_iff_equations _).mp (validCodeword_encodeData _)⟩

end Sys2Proof.Machine
end

section
/-! PROOFS. The code as a set of words (R80, R87): the encoder is injective and linear, and two different valid codewords differ
in at least four bits. -/

namespace Sys2Proof.Machine

open Sys2Proof.Spec

/-! ## The encoder as a function -/

/-- A code point below 2048 has the codeword of its data bits (R80). -/
theorem encodeWord_of_lt {cp : Nat} (h : cp < 2048) : encodeWord cp = some (encodeData (BitVec.ofNat 11 cp)) := by
  have hsmall : ¬ codePointTooLarge cp = true := by rw [codePointTooLarge_iff]; omega
  exact if_neg hsmall

/-- A code point of 2048 or more has no codeword (R80). -/
theorem encodeWord_of_ge {cp : Nat} (h : cp ≥ 2048) : encodeWord cp = none :=
  if_pos ((codePointTooLarge_iff cp).mpr h)

/-- The data bits of a code point below 2048 are the code point (R81). -/
theorem toNat_dataBits {cp : Nat} (h : cp < 2048) : (BitVec.ofNat 11 cp).toNat = cp := by
  rw [BitVec.toNat_ofNat]
  exact Nat.mod_eq_of_lt h

/-- Two data words with one codeword are equal, since extraction undoes the encoder. -/
theorem encodeData_injective : Function.Injective encodeData :=
  Function.LeftInverse.injective extractData_encodeData

/-- The encoder is linear, as placement and the parity generator are. -/
theorem encodeData_xor (a b : DataBits) : encodeData (a ^^^ b) = encodeData a ^^^ encodeData b := by
  unfold encodeData
  rw [placeData_xor, generateParity_xor]

theorem encodeWord_injective {a b : Nat} (ha : a < 2048) (hb : b < 2048) (h : encodeWord a = encodeWord b) : a = b := by
  rw [encodeWord_of_lt ha, encodeWord_of_lt hb, Option.some_inj] at h
  rw [← toNat_dataBits ha, encodeData_injective h, toNat_dataBits hb]

theorem encodeWord_xor {a b : Nat} {v w : Word} (ha : a < 2048) (hb : b < 2048) (hv : encodeWord a = some v)
    (hw : encodeWord b = some w) : encodeWord (a ^^^ b) = some (v ^^^ w) := by
  have hab : a ^^^ b < 2048 := Nat.xor_lt_two_pow (n := 11) ha hb
  rw [encodeWord_of_lt ha, Option.some_inj] at hv
  rw [encodeWord_of_lt hb, Option.some_inj] at hw
  rw [encodeWord_of_lt hab, BitVec.ofNat_xor, encodeData_xor, hv, hw]

/-- The sum of two valid codewords is valid: syndrome and overall parity are linear. -/
theorem validCodeword_xor {v w : Word} (hv : validCodeword v = true) (hw : validCodeword w = true) :
    validCodeword (v ^^^ w) = true := by
  obtain ⟨hsv, hpv⟩ := (validCodeword_iff v).mp hv
  obtain ⟨hsw, hpw⟩ := (validCodeword_iff w).mp hw
  rw [validCodeword_iff, syndrome_xor, overallParity_xor, hsv, hpv, hsw, hpw]
  exact ⟨rfl, rfl⟩

/-- Settles O39: linearity and injectivity are those of `encodeData`, below 2048. -/
theorem encoderIsInjectiveAndLinear : Obligations.EncoderIsInjectiveAndLinear :=
  ⟨fun _ ha _ hb => encodeWord_injective ha hb, fun _ ha _ hb _ _ => encodeWord_xor ha hb, fun _ _ => validCodeword_xor,
    by decide, by decide, fun _ => encodeWord_of_ge⟩

/-! ## The distance of the code -/

/-- The parity of a list of bits says whether the number of those that are 1 is odd (R10). -/
theorem parity_eq_decide_odd (S : List Bool) : parity S = decide (S.count true % 2 = 1) := by
  induction S with
  | nil => rfl
  | cons b S ih =>
    rw [parity_cons, ih, List.count_cons]
    rcases Nat.mod_two_eq_zero_or_one (S.count true) with h | h <;> cases b <;> simp [h, Nat.add_mod]

theorem weight_eq_count (w : Word) : weight w = (bitsAt w allSlots).count true := by
  rw [weight, indexForm, bitsAt, ← List.countP_eq_length_filter, List.count, List.countP_map]
  congr 1
  funext i
  simp

/-- R111: the overall parity says whether the number of bits that are 1 is odd. -/
theorem isOverallParity_overallParity (w : Word) : IsOverallParity w (overallParity w) := by
  rw [IsOverallParity, weight_eq_count]
  exact parity_eq_decide_odd _

/-- A valid codeword has an even number of bits that are 1. -/
theorem weight_even_of_validCodeword {w : Word} (h : validCodeword w = true) : weight w % 2 = 0 := by
  have hodd : ¬ weight w % 2 = 1 := of_decide_eq_false
    ((isOverallParity_overallParity w).symm.trans ((validCodeword_iff w).mp h).2)
  omega

/-- Only the all-zero word has no bit that is 1. -/
theorem eq_zero_of_weight_eq_zero {w : Word} (h : weight w = 0) : w = 0 := by
  apply word_ext
  intro i _
  have hnone : i ∉ indexForm w := by rw [List.length_eq_zero_iff.mp h]; exact List.not_mem_nil
  simpa [mem_indexForm] using hnone

/-- The syndrome of a word with exactly two bits that are 1 is the exclusive-or of their indices, which differ. -/
theorem syndrome_ne_zero_of_weight_eq_two {w : Word} (h : weight w = 2) : syndrome w ≠ 0 := by
  obtain ⟨i, j, hij⟩ := List.length_eq_two.mp h
  have hnodup : (indexForm w).Nodup := List.nodup_range.filter _
  have hlt (k : Nat) (hk : k ∈ indexForm w) : k < 16 := BitVec.lt_of_getLsbD ((mem_indexForm w k).mp hk)
  have hi : i < 16 := hlt i (by simp [hij])
  have hj : j < 16 := hlt j (by simp [hij])
  have hne : i ≠ j := by simpa [hij] using hnodup
  have hsyn : syndrome w = BitVec.ofNat 4 i ^^^ BitVec.ofNat 4 j := by simp [syndrome, hij]
  intro hzero
  have heq : BitVec.ofNat 4 i = BitVec.ofNat 4 j := BitVec.xor_eq_zero_iff.mp (hsyn.symm.trans hzero)
  have hmod : i % 16 = j % 16 := by simpa using congrArg BitVec.toNat heq
  omega

/-- R87 (d): the weight of a valid codeword other than 0 is even, and neither 0 nor 2. -/
theorem four_le_weight_of_validCodeword {w : Word} (h : validCodeword w = true) (hw : w ≠ 0) : 4 ≤ weight w := by
  have heven : weight w % 2 = 0 := weight_even_of_validCodeword h
  have hzero : weight w ≠ 0 := fun h0 => hw (eq_zero_of_weight_eq_zero h0)
  have htwo : weight w ≠ 2 := fun h2 => syndrome_ne_zero_of_weight_eq_two h2 ((validCodeword_iff w).mp h).1
  omega

/-- Settles O40: the difference of two valid codewords is a valid codeword, and the codewords of `'A'` and of 0 differ in four
bits. -/
theorem codewordsDifferInFourBits : Obligations.CodewordsDifferInFourBits := by
  refine ⟨fun v w hv hw hne => ?_, 0x8214, 0x0000, by decide, by decide, by decide⟩
  exact four_le_weight_of_validCodeword (validCodeword_xor hv hw) fun h => hne (BitVec.xor_eq_zero_iff.mp h)

end Sys2Proof.Machine
end

section
/-! PROOFS. The encoder's commands ENC, PACK and PGEN on the block (R88 to R91): their words, what each leaves, when each faults,
and the laws between them and SYND and UNPK. -/

namespace Sys2Proof.Machine

open Sys2Proof.Spec

/-! ## Command words -/

/-- The word of a command whose only operand is in `arg` (R60). -/
theorem commandWord_of_arg (op : BitVec 3) (arg : BitVec 21) :
    commandWord op 0 0 arg = (op.setWidth 32 <<< 29) ||| arg.setWidth 32 := by
  simp [commandWord]

/-- A code point that fits `arg` is the low part of its command word (R62 (a)). -/
theorem setWidth_codePoint {cp : Nat} (h : cp < 2 ^ 21) : (BitVec.ofNat 21 cp).setWidth 32 = BitVec.ofNat 32 cp := by
  apply BitVec.eq_of_toNat_eq
  rw [BitVec.toNat_setWidth, BitVec.toNat_ofNat, BitVec.toNat_ofNat, Nat.mod_eq_of_lt h]

theorem encode_enc {cp : Nat} (h : cp < 2 ^ 21) : encode (.enc cp) = BitVec.ofNat 32 cp := by
  rw [encode, Instr.opcode, Instr.lenField, Instr.argField, commandWord_of_arg, setWidth_codePoint h]
  exact BitVec.zero_or

theorem encode_pack {cp : Nat} (h : cp < 2 ^ 21) : encode (.pack cp) = 0x40000000#32 ||| BitVec.ofNat 32 cp := by
  rw [encode, Instr.opcode, Instr.lenField, Instr.argField, commandWord_of_arg, setWidth_codePoint h]
  rfl

/-- The word of a command with a word operand alone: the operation number above the operand (R62 (b)). -/
theorem commandWord_of_word (op : BitVec 3) (w : Word) :
    commandWord op 0 0 (w.setWidth 21) = (op.setWidth 32 <<< 29) ||| w.setWidth 32 := by
  have hw : (w.setWidth 21).setWidth 32 = w.setWidth 32 := by
    apply BitVec.eq_of_toNat_eq
    simp only [BitVec.toNat_setWidth]
    have := w.isLt
    omega
  rw [commandWord_of_arg, hw]

theorem encode_pgen (w : Word) : encode (.pgen w) = 0x60000000#32 ||| w.setWidth 32 := commandWord_of_word 3 w

/-! ## Refused and illegal words -/

theorem refusedWhileFaulted {i : Instr} (hi : i ≠ .clrf) : RefusedWhileFaulted i :=
  fun s hs => exec_of_fault s i hs hi

/-- The ill-formed words of an operation record ILLC when each is in a case of R68. -/
theorem recordsIllc_of_isIllegal {op : BitVec 3} {illFormed : Cmd → Prop}
    (h : ∀ c, Cmd.op c = op → illFormed c → IsIllegal c) : RecordsIllc op illFormed := by
  intro s c hs hop hc
  obtain ⟨why, hwhy⟩ := (decode_error_iff_isIllegal c).mpr (h c hop hc)
  exact present_of_decode_error hs hwhy

/-- The ill-formed words of ENC and PACK (R68 (a), (b)). -/
theorem recordsIllc_codePoint {op : BitVec 3} (hop : op ∈ [0, 2]) :
    RecordsIllc op fun c => Cmd.len c ≠ 0 ∨ Cmd.rsv c ≠ 0 := by
  have hunused : ∀ o : BitVec 3, o ∈ [0, 2] → o ∈ [0, 2, 3, 4, 5, 6, 7] := by decide
  apply recordsIllc_of_isIllegal
  rintro c rfl (hlen | hrsv)
  · exact .inr (.inl ⟨hunused _ hop, hlen⟩)
  · exact .inl hrsv

/-- The ill-formed words of PGEN, SYND, CORR and UNPK (R68 (a) to (c)). -/
theorem recordsIllc_word {op : BitVec 3} (hop : op ∈ [3, 4, 5, 6]) :
    RecordsIllc op fun c => Cmd.len c ≠ 0 ∨ Cmd.rsv c ≠ 0 ∨ Cmd.argHigh c ≠ 0 := by
  have hunused : ∀ o : BitVec 3, o ∈ [3, 4, 5, 6] → o ∈ [0, 2, 3, 4, 5, 6, 7] ∧ o ∈ [1, 3, 4, 5, 6] := by decide
  obtain ⟨hlenUnused, hhighUnused⟩ := hunused op hop
  apply recordsIllc_of_isIllegal
  rintro c rfl (hlen | hrsv | hhigh)
  · exact .inr (.inl ⟨hlenUnused, hlen⟩)
  · exact .inl hrsv
  · exact .inr (.inr (.inl ⟨hhighUnused, hhigh⟩))

/-! ## What the commands leave -/

/-- A command leaves one word: two are both in `RES` after a run from reset. -/
theorem leavesRes_iff_eq {i : Instr} {V : Word} (hV : LeavesRes i V) (W : Word) : LeavesRes i W ↔ W = V := by
  constructor
  · intro hW
    have hnext := (hW State.reset rfl).symm.trans (hV State.reset rfl)
    exact congrArg (fun t => t.regs.res) (Host.Outcome.next.inj hnext)
  · rintro rfl
    exact hV

theorem leavesRes_enc_iff {cp : Nat} (hcp : cp < 2048) (W : Word) :
    LeavesRes (.enc cp) W ↔ W = encodeData (BitVec.ofNat 11 cp) :=
  leavesRes_iff_eq (leavesRes_enc hcp) W

theorem leavesRes_pack {cp : Nat} (hcp : cp < 2048) : LeavesRes (.pack cp) (placeData (BitVec.ofNat 11 cp)) := by
  intro s hs
  rw [exec_pack, if_pos hs, if_neg (Nat.not_le.mpr hcp)]
  rfl

theorem leavesRes_pack_iff {cp : Nat} (hcp : cp < 2048) (W : Word) :
    LeavesRes (.pack cp) W ↔ W = placeData (BitVec.ofNat 11 cp) :=
  leavesRes_iff_eq (leavesRes_pack hcp) W

theorem leavesRes_pgen (w : Word) : LeavesRes (.pgen w) (generateParity w) := by
  intro s hs
  rw [exec_pgen, if_pos hs]
  rfl

theorem leavesRes_pgen_iff (w W : Word) : LeavesRes (.pgen w) W ↔ W = generateParity w :=
  leavesRes_iff_eq (leavesRes_pgen w) W

/-! ## When ENC and PACK fault -/

/-- A command that leaves a word records no fault: `FLT` stays 0. -/
theorem not_recordsFault_of_leavesRes {i : Instr} {W : Word} {c : FaultCause} (h : LeavesRes i W) (hc : c ≠ .none) :
    ¬ RecordsFault i c := by
  intro hfault
  have hnext := (hfault State.reset rfl).symm.trans (h State.reset rfl)
  exact hc (congrArg (fun t => t.regs.flt) (Host.Outcome.next.inj hnext))

theorem recordsFault_enc {cp : Nat} (hcp : cp ≥ 2048) : RecordsFault (.enc cp) .cptl := by
  intro s hs
  rw [exec_enc, if_pos hs, if_pos hcp]
  rfl

theorem recordsFault_pack {cp : Nat} (hcp : cp ≥ 2048) : RecordsFault (.pack cp) .cptl := by
  intro s hs
  rw [exec_pack, if_pos hs, if_pos hcp]
  rfl

/-- A command that leaves a word below the limit and faults from it on faults exactly there (R80). -/
theorem recordsFault_cptl_iff {i : Instr} {cp : Nat} {W : Word} (hleaves : cp < 2048 → LeavesRes i W)
    (hfault : cp ≥ 2048 → RecordsFault i .cptl) : RecordsFault i .cptl ↔ cp ≥ 2048 := by
  refine ⟨fun h => ?_, hfault⟩
  by_contra hcp
  exact not_recordsFault_of_leavesRes (hleaves (Nat.not_le.mp hcp)) (by decide) h

theorem recordsFault_enc_iff (cp : Nat) : RecordsFault (.enc cp) .cptl ↔ cp ≥ 2048 :=
  recordsFault_cptl_iff leavesRes_enc recordsFault_enc

theorem recordsFault_pack_iff (cp : Nat) : RecordsFault (.pack cp) .cptl ↔ cp ≥ 2048 :=
  recordsFault_cptl_iff leavesRes_pack recordsFault_pack

/-! ## The three commands -/

/-- Settles O28: the word that ENC leaves is the encoder's, which is the codeword. -/
theorem encWritesCodeword : Obligations.EncWritesCodeword := by
  refine ⟨fun _ => encode_enc, fun cp hcp => ⟨_, isCodeword_encodeData cp, leavesRes_enc hcp⟩, fun _ => recordsFault_enc,
    fun _ => refusedWhileFaulted nofun, recordsIllc_codePoint (by decide), ?_, ?_, ?_, by decide⟩
  all_goals rw [leavesRes_enc_iff (by decide)]; decide

/-- Placement leaves the parity slots 0 (R89). -/
theorem paritySlotsZero_placeData (d : DataBits) : ParitySlotsZero (placeData d) := by
  have hslots : ∀ i ∈ PPOS, i < 16 ∧ DPOS.contains i = false := by decide
  have hzero (i : Nat) (hi : i ∈ PPOS) : (placeData d).getLsbD i = false := by
    obtain ⟨hslot, hnot⟩ := hslots i hi
    rw [getLsbD_placeData d i hslot, hnot, Bool.false_and]
  exact ⟨hzero 0 (by decide), hzero 1 (by decide), hzero 2 (by decide), hzero 4 (by decide), hzero 8 (by decide)⟩

/-- PACK leaves a valid codeword only where ENC leaves the same word: ENC puts the parity generator after it (R89). -/
theorem validCodeword_placeData_iff {cp : Nat} (hcp : cp < 2048) :
    validCodeword (placeData (BitVec.ofNat 11 cp)) = true ↔ LeavesRes (.enc cp) (placeData (BitVec.ofNat 11 cp)) := by
  rw [leavesRes_enc_iff hcp, encodeData, ← generateParity_eq_self_iff]
  exact eq_comm

/-- Settles O29: the word that PACK leaves is the placement of the data bits. -/
theorem packPlacesDataBits : Obligations.PackPlacesDataBits := by
  refine ⟨fun _ => encode_pack, fun cp hcp => ⟨_, carriesData_placeData cp, paritySlotsZero_placeData _, leavesRes_pack hcp,
      validCodeword_placeData_iff hcp⟩, fun _ => recordsFault_pack, fun _ => refusedWhileFaulted nofun,
    recordsIllc_codePoint (by decide), ?_, ?_, ?_, ?_, ?_, by decide⟩
  on_goal 5 => rw [leavesRes_enc_iff (by decide)]; decide
  all_goals rw [leavesRes_pack_iff (by decide)]; decide

/-- Settles O30: PGEN leaves the one valid codeword with the data slots of its operand. -/
theorem pgenRecomputesParity : Obligations.PgenRecomputesParity := by
  refine ⟨encode_pgen, fun w => ?_, fun w W hdata hvalid => ?_, fun _ => refusedWhileFaulted nofun,
    recordsIllc_word (by decide), ?_, ?_, ?_, ?_, ?_⟩
  · have hvalid : validCodeword (generateParity w) = true := validCodeword_generateParity w
    refine ⟨generateParity w, sameData_symm (sameData_generateParity w), groupEquations_generateParity w,
      overallEquation_generateParity w, hvalid, leavesRes_pgen w, ?_⟩
    rw [leavesRes_pgen_iff, (generateParity_eq_self_iff _).mpr hvalid]
  · rw [leavesRes_pgen_iff, eq_generateParity_iff]
    exact ⟨hdata, hvalid⟩
  all_goals rw [leavesRes_pgen_iff]; decide

/-! ## Laws between the commands -/

/-- In a codeword slot 0 is the exclusive-or of the data bits that are in an even number of groups (R84). -/
theorem overallSlot_of_isCodeword {cp : Nat} {W : Word} (h : IsCodeword cp W) :
    W.getLsbD 0 = (cp.testBit 10 ^^ cp.testBit 9 ^^ cp.testBit 8 ^^ cp.testBit 6 ^^ cp.testBit 5 ^^ cp.testBit 3 ^^
      cp.testBit 0) := by
  obtain ⟨⟨d3, d5, d6, -, d9, d10, -, d12, -, -, d15⟩, ⟨g1, g2, g4, g8⟩, hoverall⟩ := h
  rw [← d3, ← d5, ← d6, ← d9, ← d10, ← d12, ← d15, hoverall, g1, g2, g4, g8]
  generalize W.getLsbD 3 = x3, W.getLsbD 5 = x5, W.getLsbD 6 = x6, W.getLsbD 7 = x7, W.getLsbD 9 = x9, W.getLsbD 10 = x10,
    W.getLsbD 11 = x11, W.getLsbD 12 = x12, W.getLsbD 13 = x13, W.getLsbD 14 = x14, W.getLsbD 15 = x15
  simp only [Bool.xor_left_comm, Bool.xor_comm, Bool.bne_self_left, Bool.xor_self, Bool.xor_false]

/-- Settles O36: ENC leaves the codeword, and its bit 0 follows from the five equations. -/
theorem overallParityOfDataBits : Obligations.OverallParityOfDataBits := by
  intro s cp hs hcp
  have hcode : IsCodeword cp (encodeData (BitVec.ofNat 11 cp)) := isCodeword_encodeData cp
  have hoverall : OverallEquation (encodeData (BitVec.ofNat 11 cp)) := overallEquation_generateParity _
  exact ⟨_, leavesRes_enc hcp s hs, hoverall, (overallParity_eq_false_iff _).mpr hoverall, overallSlot_of_isCodeword hcode⟩

theorem leavesSynPar_synd (w : Word) : LeavesSynPar w (syndrome w) (overallParity w) := by
  intro s hs
  rw [exec_synd, if_pos hs]
  rfl

/-- SYND leaves one syndrome and one overall parity: those of its operand (R121). -/
theorem leavesSynPar_iff (w : Word) (t : Syndrome) (p : Bool) :
    LeavesSynPar w t p ↔ syndrome w = t ∧ overallParity w = p := by
  constructor
  · intro h
    have hnext := (leavesSynPar_synd w State.reset rfl).symm.trans (h State.reset rfl)
    simpa [withRegs] using hnext
  · rintro ⟨rfl, rfl⟩
    exact leavesSynPar_synd w

/-- A valid codeword is the one that ENC leaves for the data bits in it (R87 (b)). -/
theorem leavesRes_enc_extractData {w : Word} (h : validCodeword w = true) : LeavesRes (.enc (extractData w).toNat) w := by
  rw [leavesRes_enc_iff (extractData w).isLt, BitVec.ofNat_toNat, BitVec.setWidth_eq, encodeData_extractData,
    (generateParity_eq_self_iff w).mpr h]

/-- Settles O38: SYND finds 0 and 0 exactly in the valid codewords. -/
theorem validCodewordsAreTheEncoded : Obligations.ValidCodewordsAreTheEncoded := by
  intro w
  rw [leavesSynPar_iff, ← validCodeword_iff]
  constructor
  · rintro ⟨cp, hcp, hleaves⟩
    rw [(leavesRes_enc_iff hcp w).mp hleaves]
    exact validCodeword_encodeData _
  · intro hvalid
    exact ⟨_, (extractData w).isLt, leavesRes_enc_extractData hvalid⟩

/-- What UNPK finds in what PACK leaves is the code point (R91). -/
theorem leavesDatChr_placeData (d : DataBits) : LeavesDatChr (placeData d) d (charOfData d) := by
  have h := leavesDatChr_unpk (placeData d)
  rwa [extractData_placeData] at h

/-- PGEN leaves the codeword of the data bits in its operand (R91). -/
theorem encodeWord_extractData (w : Word) : encodeWord (extractData w).toNat = some (generateParity w) := by
  rw [encodeWord_of_lt (extractData w).isLt, BitVec.ofNat_toNat, BitVec.setWidth_eq, encodeData_extractData]

/-- Settles O41: ENC is the parity generator after placement by definition, and both fault from 2048 on. -/
theorem encIsPackThenPgen : Obligations.EncIsPackThenPgen := by
  refine ⟨fun cp hcp => ⟨_, _, leavesRes_pack hcp, leavesRes_pgen _, leavesRes_enc hcp⟩,
    fun w => ⟨_, _, _, leavesDatChr_unpk w, leavesRes_pgen w, encodeWord_extractData w⟩,
    fun cp hcp => ⟨_, _, leavesRes_pack hcp, leavesDatChr_placeData _⟩, fun cp => ?_⟩
  rw [recordsFault_enc_iff, recordsFault_pack_iff]

end Sys2Proof.Machine
end

section
/-! PROOFS. The noise channel (R101 to R107): the bits one event covers, several events as one error mask, and what follows for
the length and the reach of noise. -/

namespace Sys2Proof.Machine

/-! ## One event -/

theorem eventCovers_eq_true_iff (i r n : Nat) : eventCovers i r n = true ↔ i ≤ n + r ∧ n ≤ i + r := by
  simp [eventCovers]

@[simp] theorem noiseEvent_length (i r : Nat) (S : List Bool) : (noiseEvent i r S).length = S.length := by
  simp [noiseEvent]

@[simp] theorem noiseEvent_getElem (i r : Nat) (S : List Bool) (n : Nat) (h : n < (noiseEvent i r S).length) :
    (noiseEvent i r S)[n] = xor (S[n]'(by simpa using h)) (eventCovers i r n) := by
  simp [noiseEvent]

theorem noiseEvent_getElem_ne_iff (i r : Nat) (S : List Bool) (n : Nat) (h : n < S.length)
    (h' : n < (noiseEvent i r S).length) : (noiseEvent i r S)[n] ≠ S[n] ↔ (i ≤ n + r ∧ n ≤ i + r) := by
  rw [noiseEvent_getElem, ← eventCovers_eq_true_iff]
  cases S[n] <;> simp

/-- Every flipped bit is in the burst of `2r + 1` indices that starts at `i - r`; clipping only removes some (R106). -/
theorem noiseEvent_flips_le (i r : Nat) (S : List Bool) :
    ((List.range S.length).filter fun n => (noiseEvent i r S)[n]? != S[n]?).length ≤ 2 * r + 1 := by
  have hburst : ((List.range S.length).filter fun n => (noiseEvent i r S)[n]? != S[n]?) ⊆ List.range' (i - r) (2 * r + 1) := by
    intro n hn
    obtain ⟨hmem, hflip⟩ := List.mem_filter.mp hn
    have hlen : n < S.length := List.mem_range.mp hmem
    have hne : (noiseEvent i r S)[n]'(by simpa using hlen) ≠ S[n] := by
      simpa [hlen] using hflip
    obtain ⟨hlow, hhigh⟩ := (noiseEvent_getElem_ne_iff i r S n hlen _).mp hne
    rw [List.mem_range'_1]
    omega
  simpa using (List.subperm_of_subset (List.nodup_range.filter _) hburst).length_le

/-! ## Several events -/

theorem injectNoise_cons_eq_some {i r : Nat} {rest : List Nat} {S S' : List Bool} :
    injectNoise S (i :: rest) r = some S' ↔ i < S.length ∧ injectNoise (noiseEvent i r S) rest r = some S' := by
  simp [injectNoise]

theorem injectNoise_singleton {i r : Nat} {S : List Bool} (h : i < S.length) :
    injectNoise S [i] r = some (noiseEvent i r S) :=
  injectNoise_cons_eq_some.mpr ⟨h, rfl⟩

theorem exists_injectNoise (draws : List Nat) (r : Nat) (S : List Bool) (h : ∀ i ∈ draws, i < S.length) :
    ∃ S', injectNoise S draws r = some S' := by
  induction draws generalizing S with
  | nil => exact ⟨S, rfl⟩
  | cons i rest ih =>
    obtain ⟨hi, hrest⟩ := List.forall_mem_cons.mp h
    obtain ⟨S', hS'⟩ := ih (noiseEvent i r S) (by simpa using hrest)
    exact ⟨S', injectNoise_cons_eq_some.mpr ⟨hi, hS'⟩⟩

/-! ## The net mask -/

theorem decide_odd_countP_cons {α : Type} (p : α → Bool) (a : α) (l : List α) :
    decide ((a :: l).countP p % 2 = 1) = xor (p a) (decide (l.countP p % 2 = 1)) := by
  rw [List.countP_cons]
  rcases Nat.mod_two_eq_zero_or_one (l.countP p) with h | h <;> cases p a <;> simp [h, Nat.add_mod]

@[simp] theorem xorStream_netMask_length (draws : List Nat) (r : Nat) (S : List Bool) :
    (xorStream S (netMask S.length draws r)).length = S.length := by
  simp [xorStream, netMask]

theorem xorStream_netMask_nil (r : Nat) (S : List Bool) : xorStream S (netMask S.length [] r) = S := by
  refine List.ext_getElem (by simp) fun n _ _ => ?_
  simp [xorStream, netMask]

/-- The first event can be taken out of the mask and applied to the stream (R103). -/
theorem xorStream_netMask_cons (i : Nat) (rest : List Nat) (r : Nat) (S : List Bool) :
    xorStream S (netMask S.length (i :: rest) r) =
      xorStream (noiseEvent i r S) (netMask (noiseEvent i r S).length rest r) := by
  refine List.ext_getElem (by rw [xorStream_netMask_length, xorStream_netMask_length, noiseEvent_length]) fun n _ _ => ?_
  simp only [xorStream, netMask, List.getElem_zipWith, List.getElem_map, List.getElem_range, noiseEvent_getElem,
    decide_odd_countP_cons, Bool.xor_assoc]

/-- Settles O58, by induction over the events: each event is a mask of its own, and the masks add up modulo 2. -/
theorem noiseIsAnErrorMask : Obligations.NoiseIsAnErrorMask := by
  intro draws r S S' h
  induction draws generalizing S with
  | nil =>
    obtain rfl : S = S' := Option.some.inj h
    exact (xorStream_netMask_nil r S).symm
  | cons i rest ih =>
    obtain ⟨_, hrest⟩ := injectNoise_cons_eq_some.mp h
    rw [xorStream_netMask_cons]
    exact ih _ hrest

theorem injectNoise_length {draws : List Nat} {r : Nat} {S S' : List Bool} (h : injectNoise S draws r = some S') :
    S'.length = S.length := by
  rw [noiseIsAnErrorMask draws r S S' h, xorStream_netMask_length]

/-- Settles O59: the length is that of the error mask, and a single event flips what it covers. -/
theorem noiseIsContained : Obligations.NoiseIsContained :=
  ⟨fun _ _ _ _ => injectNoise_length, exists_injectNoise, fun i r S h =>
    ⟨noiseEvent i r S, injectNoise_singleton h, noiseEvent_getElem_ne_iff i r S, noiseEvent_flips_le i r S⟩⟩

end Sys2Proof.Machine
end

section
/-! PROOFS. Flips and the decoder's units on words (R110 to R117): what a flipped bit does to the syndrome and the overall parity,
what the corrected word is and when it is valid, and when extraction from it gives the data bits of a codeword. -/

namespace Sys2Proof.Machine

open Sys2Proof.Spec

/-! ## One flipped bit -/

/-- R110: the syndrome, bit by bit, is the exclusive-or of the slots that the rule lists. -/
theorem isSyndrome_syndrome (w : Word) : IsSyndrome w (syndrome w) := by
  have hbit (k : Nat) (hk : k < 4) : (syndrome w).getLsbD k = parity (bitsAt w (2 ^ k :: groupSlots k)) := by
    rw [getLsbD_syndrome w k hk, filter_testBit_allSlots k hk]
  rw [IsSyndrome, hbit 0 (by decide), hbit 1 (by decide), hbit 2 (by decide), hbit 3 (by decide)]
  simp [bitsAt, groupSlots, G1, G2, G4, G8]

theorem indexForm_oneHot : ∀ i < 16, indexForm (1#16 <<< i) = [i] := by decide

theorem weight_oneHot {i : Nat} (hi : i < 16) : weight (1#16 <<< i) = 1 := by
  rw [weight, indexForm_oneHot i hi, List.length_singleton]

theorem syndrome_oneHot {i : Nat} (hi : i < 16) : syndrome (1#16 <<< i) = BitVec.ofNat 4 i := by
  rw [syndrome, indexForm_oneHot i hi]
  exact BitVec.zero_xor

theorem overallParity_oneHot {i : Nat} (hi : i < 16) : overallParity (1#16 <<< i) = true := by
  rw [isOverallParity_overallParity (1#16 <<< i), weight_oneHot hi]
  rfl

/-- R110: a flip changes the syndrome by its index. -/
theorem syndrome_flip (w : Word) {i : Nat} (hi : i < 16) :
    syndrome (w ^^^ (1#16 <<< i)) = syndrome w ^^^ BitVec.ofNat 4 i := by
  rw [syndrome_xor, syndrome_oneHot hi]

/-- R111: a flip complements the overall parity. -/
theorem overallParity_flip (w : Word) {i : Nat} (hi : i < 16) :
    overallParity (w ^^^ (1#16 <<< i)) = !overallParity w := by
  rw [overallParity_xor, overallParity_oneHot hi, Bool.xor_true]

/-- Settles O37: the syndrome and the overall parity are linear, and those of a word with one bit set are its index and 1. -/
theorem flippedBitMovesSyndrome : Obligations.FlippedBitMovesSyndrome := by
  intro w
  refine ⟨syndrome_eq_zero_iff w, isSyndrome_syndrome w, isOverallParity_overallParity w,
    fun i hi => ⟨syndrome_flip w hi, overallParity_flip w hi⟩, ?_⟩
  simpa using syndrome_flip w (show 0 < 16 by decide)

/-! ## The corrected word -/

theorem correctionNeeded_eq_decide (t : Syndrome) (p : Bool) : correctionNeeded t p = decide (t ≠ 0 ∨ p = true) := by
  rw [Bool.eq_iff_iff]
  simp [correctionNeeded]

/-- R112: with syndrome 0 and parity 0 no bit is flipped. -/
theorem correctWord_of_validCodeword {w : Word} (h : validCodeword w = true) : correctWord w = w := by
  obtain ⟨hs, hp⟩ := (validCodeword_iff w).mp h
  rw [correctWord, correctionMask, hs, hp]
  exact BitVec.xor_zero

/-- R112: with a syndrome or a parity that is not 0 the bit at the syndrome is flipped. -/
theorem correctWord_of_flip {w : Word} (h : syndrome w ≠ 0 ∨ overallParity w = true) :
    correctWord w = w ^^^ (1#16 <<< (syndrome w).toNat) := by
  rw [correctWord, correctionMask, correctionNeeded_eq_decide, decide_eq_true h, if_pos rfl]

theorem isCorrected_correctWord (w : Word) : IsCorrected w (syndrome w) (overallParity w) (correctWord w) :=
  ⟨fun h => correctWord_of_validCodeword ((validCodeword_iff w).mpr h), correctWord_of_flip⟩

/-- R112: a word is a valid codeword, or the correction flips a bit of it. -/
theorem valid_or_flip (w : Word) : validCodeword w = true ∨ (syndrome w ≠ 0 ∨ overallParity w = true) := by
  rw [validCodeword_iff, ← Bool.not_eq_false, Ne, ← not_and_or]
  exact Classical.em _

/-- The flip at the syndrome always makes the syndrome 0. -/
theorem syndrome_correctWord (w : Word) : syndrome (correctWord w) = 0 := by
  rcases valid_or_flip w with hvalid | hflip
  · rw [correctWord_of_validCodeword hvalid, ((validCodeword_iff w).mp hvalid).1]
  · rw [correctWord_of_flip hflip, syndrome_flip w (syndrome w).isLt, BitVec.ofNat_toNat, BitVec.setWidth_eq, BitVec.xor_self]
    rfl

/-- R114: the corrected word has odd overall parity exactly when the parity was even and a bit was flipped all the same. -/
theorem overallParity_correctWord (w : Word) :
    overallParity (correctWord w) = true ↔ overallParity w = false ∧ syndrome w ≠ 0 := by
  rcases valid_or_flip w with hvalid | hflip
  · obtain ⟨hs, hp⟩ := (validCodeword_iff w).mp hvalid
    simp [correctWord_of_validCodeword hvalid, hs, hp]
  · rw [correctWord_of_flip hflip, overallParity_flip w (syndrome w).isLt]
    rw [Bool.not_eq_true']
    exact (and_iff_left_of_imp fun hp => hflip.resolve_right (by simp [hp])).symm

/-- R114: the corrected word is valid exactly when the parity was 1 or the syndrome 0. -/
theorem validCodeword_correctWord_iff (w : Word) :
    validCodeword (correctWord w) = true ↔ overallParity w = true ∨ syndrome w = 0 := by
  rw [validCodeword_iff, ← Bool.not_eq_true, overallParity_correctWord, and_iff_right (syndrome_correctWord w),
    not_and_or, Bool.not_eq_false, not_ne_iff]

/-- R114: a correction changes at most one bit. -/
theorem weight_xor_correctWord_le (w : Word) : weight (w ^^^ correctWord w) ≤ 1 := by
  rcases valid_or_flip w with hvalid | hflip
  · rw [correctWord_of_validCodeword hvalid, BitVec.xor_self]
    decide
  · rw [correctWord_of_flip hflip, xor_cancel_left, weight_oneHot (syndrome w).isLt]

/-- Settles O43: the correction makes the syndrome 0, and leaves the parity odd in the fourth row of R112 alone. -/
theorem correctedWordValidity : Obligations.CorrectedWordValidity := fun w =>
  ⟨validCodeword_correctWord_iff w, fun hp hs => (overallParity_correctWord w).mpr ⟨hp, hs⟩, weight_xor_correctWord_le w⟩

/-! ## Extraction from the corrected word -/

/-- The data bits of a valid codeword fix it. -/
theorem extractData_eq_iff_of_validCodeword {v w : Word} (hv : validCodeword v = true) (hw : validCodeword w = true) :
    extractData v = extractData w ↔ v = w := by
  refine ⟨fun h => ?_, congrArg extractData⟩
  rw [← (generateParity_eq_self_iff v).mpr hv, ← encodeData_extractData, h, encodeData_extractData,
    (generateParity_eq_self_iff w).mpr hw]

/-- With an odd parity the decoder finds the data bits of a codeword exactly when it finds the codeword. -/
theorem extractData_correctWord_eq_iff_of_odd {C w : Word} (hC : validCodeword C = true) (hw : overallParity w = true) :
    extractData (correctWord w) = extractData C ↔ correctWord w = C :=
  extractData_eq_iff_of_validCodeword ((validCodeword_correctWord_iff w).mpr (.inl hw)) hC

/-- With an even parity and a flip made all the same, the decoder finds the data bits of a codeword exactly when the corrected
word is wrong in bit 0 alone. -/
theorem extractData_correctWord_eq_iff_of_even {C w : Word} (hC : validCodeword C = true) (hp : overallParity w = false)
    (hs : syndrome w ≠ 0) : extractData (correctWord w) = extractData C ↔ correctWord w = C ^^^ (1#16 <<< 0) := by
  have hodd : overallParity (correctWord w) = true := (overallParity_correctWord w).mpr ⟨hp, hs⟩
  have hvalid : validCodeword (correctWord w ^^^ (1#16 <<< 0)) = true := by
    rw [validCodeword_iff, syndrome_flip _ (by decide), overallParity_flip _ (by decide), syndrome_correctWord, hodd]
    exact ⟨rfl, rfl⟩
  have hdata : extractData (correctWord w ^^^ (1#16 <<< 0)) = extractData (correctWord w) := by
    rw [extractData_xor, show extractData (1#16 <<< 0) = 0 by decide]
    exact BitVec.xor_zero
  rw [← hdata, extractData_eq_iff_of_validCodeword hvalid hC, xor_eq_iff_left_eq]

end Sys2Proof.Machine
end

section
/-! PROOFS. Errors in a codeword (R118, R119): one is repaired, two are miscorrected at the exclusive-or of their indices, and after
three the data bits are never right. -/

namespace Sys2Proof.Machine

open Sys2Proof.Spec

/-! ## Flips against flips -/

/-- Three flips at different indices are not one flip: each of the three would be it. -/
theorem three_flips_ne_one_flip (C : Word) {a b e k : Nat} (ha : a < 16) (hb : b < 16) (he : e < 16) (hk : k < 16)
    (hab : a ≠ b) (hae : a ≠ e) (hbe : b ≠ e) :
    C ^^^ (1#16 <<< a) ^^^ (1#16 <<< b) ^^^ (1#16 <<< e) ≠ C ^^^ (1#16 <<< k) := by
  intro h
  have hbit (i : Nat) : (decide (i = a) ^^ decide (i = b) ^^ decide (i = e)) = decide (i = k) := by
    have hi := congrArg (fun w => BitVec.getLsbD w i) h
    simpa only [BitVec.getLsbD_xor, getLsbD_oneHot _ _ ha, getLsbD_oneHot _ _ hb, getLsbD_oneHot _ _ he,
      getLsbD_oneHot _ _ hk, Bool.xor_assoc, Bool.xor_right_inj] using hi
  have hak : a = k := by simpa [hab, hae] using hbit a
  have hbk : b = k := by simpa [hab.symm, hbe] using hbit b
  exact hab (hak.trans hbk.symm)

theorem xor_lt_sixteen {a b : Nat} (ha : a < 16) (hb : b < 16) : a ^^^ b < 16 := Nat.xor_lt_two_pow (n := 4) ha hb

/-! ## One, two and three errors -/

section

variable {C : Word} (hC : validCodeword C = true) {a b e : Nat}
include hC

/-- R118 (b): the syndrome of a codeword with one error is the index of the error. -/
theorem syndrome_one_error (ha : a < 16) : syndrome (C ^^^ (1#16 <<< a)) = BitVec.ofNat 4 a := by
  rw [syndrome_flip C ha, ((validCodeword_iff C).mp hC).1]
  exact BitVec.zero_xor

theorem overallParity_one_error (ha : a < 16) : overallParity (C ^^^ (1#16 <<< a)) = true := by
  rw [overallParity_flip C ha, ((validCodeword_iff C).mp hC).2, Bool.not_false]

/-- R118 (b): one error is repaired. -/
theorem correctWord_one_error (ha : a < 16) : correctWord (C ^^^ (1#16 <<< a)) = C := by
  rw [correctWord_of_flip (.inr (overallParity_one_error hC ha)), syndrome_one_error hC ha, BitVec.toNat_ofNat,
    Nat.mod_eq_of_lt ha, xor_cancel_right]

/-- R119: the syndrome of a codeword with two errors is the exclusive-or of their indices. -/
theorem syndrome_two_errors (ha : a < 16) (hb : b < 16) :
    syndrome (C ^^^ (1#16 <<< a) ^^^ (1#16 <<< b)) = BitVec.ofNat 4 (a ^^^ b) := by
  rw [syndrome_flip _ hb, syndrome_one_error hC ha, BitVec.ofNat_xor]

theorem overallParity_two_errors (ha : a < 16) (hb : b < 16) :
    overallParity (C ^^^ (1#16 <<< a) ^^^ (1#16 <<< b)) = false := by
  rw [overallParity_flip _ hb, overallParity_one_error hC ha, Bool.not_true]

theorem syndrome_two_errors_ne_zero (hab : a < b) (hb : b < 16) : syndrome (C ^^^ (1#16 <<< a) ^^^ (1#16 <<< b)) ≠ 0 := by
  intro h
  have hxor := congrArg BitVec.toNat ((syndrome_two_errors hC (hab.trans hb) hb).symm.trans h)
  rw [BitVec.toNat_ofNat, Nat.mod_eq_of_lt (xor_lt_sixteen (hab.trans hb) hb)] at hxor
  exact Nat.xor_ne_zero_iff.mpr hab.ne hxor

/-- R119: with two errors the flip is made at the exclusive-or of the two indices. -/
theorem correctWord_two_errors (hab : a < b) (hb : b < 16) :
    correctWord (C ^^^ (1#16 <<< a) ^^^ (1#16 <<< b)) =
      C ^^^ (1#16 <<< a) ^^^ (1#16 <<< b) ^^^ (1#16 <<< (a ^^^ b)) := by
  rw [correctWord_of_flip (.inl (syndrome_two_errors_ne_zero hC hab hb)), syndrome_two_errors hC (hab.trans hb) hb,
    BitVec.toNat_ofNat, Nat.mod_eq_of_lt (xor_lt_sixteen (hab.trans hb) hb)]

/-- R119 (i), (ii): after two errors the data bits are right exactly when one error is at index 0; otherwise the three wrong
indices differ from each other. -/
theorem extractData_two_errors_iff (hab : a < b) (hb : b < 16) :
    extractData (C ^^^ (1#16 <<< a) ^^^ (1#16 <<< b) ^^^ (1#16 <<< (a ^^^ b))) = extractData C ↔ a = 0 := by
  have ha : a < 16 := hab.trans hb
  rw [← correctWord_two_errors hC hab hb, extractData_correctWord_eq_iff_of_even hC (overallParity_two_errors hC ha hb)
    (syndrome_two_errors_ne_zero hC hab hb), correctWord_two_errors hC hab hb]
  constructor
  · intro h
    by_contra ha0
    have hane : a ≠ a ^^^ b := fun h => Nat.ne_of_gt (Nat.zero_lt_of_lt hab) (xor_left_eq_self_iff.mp h.symm)
    have hbne : b ≠ a ^^^ b := fun h => ha0 (xor_right_eq_self_iff.mp h.symm)
    exact three_flips_ne_one_flip C ha hb (xor_lt_sixteen ha hb) (by decide) hab.ne hane hbne h
  · rintro rfl
    rw [Nat.zero_xor, xor_cancel_right]

theorem overallParity_three_errors (ha : a < 16) (hb : b < 16) (he : e < 16) :
    overallParity (C ^^^ (1#16 <<< a) ^^^ (1#16 <<< b) ^^^ (1#16 <<< e)) = true := by
  rw [overallParity_flip _ he, overallParity_two_errors hC ha hb, Bool.not_false]

/-- R119: after three errors the data bits are never right, since the one flip cannot undo three. -/
theorem extractData_three_errors_ne (hab : a < b) (hbe : b < e) (he : e < 16) :
    extractData (correctWord (C ^^^ (1#16 <<< a) ^^^ (1#16 <<< b) ^^^ (1#16 <<< e))) ≠ extractData C := by
  have hb : b < 16 := hbe.trans he
  have ha : a < 16 := hab.trans hb
  have hodd : overallParity (C ^^^ (1#16 <<< a) ^^^ (1#16 <<< b) ^^^ (1#16 <<< e)) = true :=
    overallParity_three_errors hC ha hb he
  rw [Ne, extractData_correctWord_eq_iff_of_odd hC hodd, correctWord_of_flip (.inr hodd), xor_eq_iff_left_eq]
  exact three_flips_ne_one_flip C ha hb he (BitVec.isLt _) hab.ne (hab.trans hbe).ne hbe.ne

end

/-! ## The character after two errors -/

theorem charOfData_xor (c d : DataBits) : charOfData (c ^^^ d) = charOfData c ^^^ charOfData d := BitVec.setWidth_xor

/-- The twelve pairs of R119 without index 0 that leave the character right: the three wrong indices are among 1 to 6. -/
def charKeepingPairs : List (Nat × Nat) :=
  [(1, 2), (1, 3), (1, 4), (1, 5), (2, 3), (2, 4), (2, 6), (3, 5), (3, 6), (4, 5), (4, 6), (5, 6)]

/-- R119: of the 120 patterns of two errors and the miscorrection, the 15 with index 0 and the twelve pairs do not reach the
character. -/
theorem charOfData_errorPattern_eq_zero_iff : ∀ b < 16, ∀ a < b,
    (charOfData (extractData ((1#16 <<< a) ^^^ (1#16 <<< b) ^^^ (1#16 <<< (a ^^^ b)))) = 0 ↔
      a = 0 ∨ (a, b) ∈ charKeepingPairs) := by decide

/-- R119: extraction is linear, so whether the character is right depends on the pattern of the errors alone. -/
theorem charOfData_two_errors_iff (C : Word) {a b : Nat} (hab : a < b) (hb : b < 16) :
    charOfData (extractData (C ^^^ (1#16 <<< a) ^^^ (1#16 <<< b) ^^^ (1#16 <<< (a ^^^ b)))) = charOfData (extractData C) ↔
      a = 0 ∨ (a, b) ∈ charKeepingPairs := by
  rw [← charOfData_errorPattern_eq_zero_iff b hb a hab, BitVec.xor_assoc C, BitVec.xor_assoc C, extractData_xor,
    charOfData_xor, xor_left_eq_self_iff]

end Sys2Proof.Machine
end

section
/-! PROOFS. The decoder's commands SYND, CORR, UNPK and DEC on the block (R121 to R126): their words, what each leaves, when DEC
faults, the laws between them, and what they make of a codeword with errors. -/

namespace Sys2Proof.Machine

open Sys2Proof.Spec

/-! ## Command words -/

theorem encode_synd (w : Word) : encode (.synd w) = 0x80000000#32 ||| w.setWidth 32 := commandWord_of_word 4 w

theorem encode_corr (w : Word) : encode (.corr w) = 0xA0000000#32 ||| w.setWidth 32 := commandWord_of_word 5 w

theorem encode_unpk (w : Word) : encode (.unpk w) = 0xC0000000#32 ||| w.setWidth 32 := commandWord_of_word 6 w

theorem encode_dec (w : Word) {len : Nat} (h : len < 32) :
    encode (.dec w len) = 0x20000000#32 ||| (BitVec.ofNat 32 len <<< 21) ||| w.setWidth 32 := by
  have hlen : (BitVec.ofNat 5 len).setWidth 32 = BitVec.ofNat 32 len := BitVec.setWidth_ofNat_of_le_of_lt (by decide) h
  have hw : (w.setWidth 21).setWidth 32 = w.setWidth 32 := BitVec.setWidth_setWidth (by decide)
  rw [encode, Instr.opcode, Instr.lenField, Instr.argField, commandWord, hlen, hw]
  rfl

/-- The ill-formed words of DEC (R68 (a), (c)). -/
theorem recordsIllc_chunk : RecordsIllc 1 fun c => Cmd.rsv c ≠ 0 ∨ Cmd.argHigh c ≠ 0 := by
  apply recordsIllc_of_isIllegal
  rintro c hop (hrsv | hhigh)
  · exact .inl hrsv
  · exact .inr (.inr (.inl ⟨by rw [hop]; decide, hhigh⟩))

/-! ## What the commands leave -/

theorem leavesCorrection_corr (w : Word) :
    LeavesCorrection w (syndrome w) (overallParity w) (decide (syndrome w ≠ 0 ∨ overallParity w = true)) (correctWord w) := by
  intro s hs
  rw [exec_corr, if_pos hs, ← correctionNeeded_eq_decide]
  rfl

theorem leavesCorrection_of_eq {w : Word} {t : Syndrome} {p f : Bool} {y : Word}
    (h : syndrome w = t ∧ overallParity w = p ∧ decide (t ≠ 0 ∨ p = true) = f ∧ correctWord w = y) :
    LeavesCorrection w t p f y := by
  obtain ⟨rfl, rfl, rfl, rfl⟩ := h
  exact leavesCorrection_corr w

/-- UNPK leaves one value in `DAT` and one in `CHR`: the data bits of its operand and their low byte (R123). -/
theorem leavesDatChr_iff (w : Word) (d : DataBits) (c : CharCode) :
    LeavesDatChr w d c ↔ extractData w = d ∧ charOfData (extractData w) = c := by
  constructor
  · intro h
    have hnext := (leavesDatChr_unpk w State.reset rfl).symm.trans (h State.reset rfl)
    simpa [withRegs] using hnext
  · rintro ⟨rfl, rfl⟩
    exact leavesDatChr_unpk w

theorem leavesDecoded_dec (w : Word) :
    LeavesDecoded w (correctWord w) (extractData (correctWord w)) (charOfData (extractData (correctWord w))) (syndrome w)
      (overallParity w) (decide (syndrome w ≠ 0 ∨ overallParity w = true)) := by
  intro s hs
  rw [exec_dec, if_pos hs, if_neg (not_not.mpr rfl), ← correctionNeeded_eq_decide, ← hs]
  rfl

theorem leavesDecoded_of_eq {w r : Word} {d : DataBits} {c : CharCode} {t : Syndrome} {p f : Bool}
    (h : correctWord w = r ∧ extractData r = d ∧ charOfData d = c ∧ syndrome w = t ∧ overallParity w = p ∧
      decide (t ≠ 0 ∨ p = true) = f) : LeavesDecoded w r d c t p f := by
  obtain ⟨rfl, rfl, rfl, rfl, rfl, rfl⟩ := h
  exact leavesDecoded_dec w

theorem recordsFault_dec (w : Word) {len : Nat} (h : len ≠ 16) : RecordsFault (.dec w len) .malf := by
  intro s hs
  rw [exec_dec, if_pos hs, if_pos h]
  rfl

/-- R115: extraction, slot by slot. -/
theorem isExtracted_extractData (y : Word) : IsExtracted y (extractData y) :=
  ⟨getLsbD_extractData y 10 (by decide), getLsbD_extractData y 9 (by decide), getLsbD_extractData y 8 (by decide),
    getLsbD_extractData y 7 (by decide), getLsbD_extractData y 6 (by decide), getLsbD_extractData y 5 (by decide),
    getLsbD_extractData y 4 (by decide), getLsbD_extractData y 3 (by decide), getLsbD_extractData y 2 (by decide),
    getLsbD_extractData y 1 (by decide), getLsbD_extractData y 0 (by decide)⟩

/-! ## The four commands -/

/-- Settles O31: SYND leaves the model's syndrome and overall parity, which are those of R110 and R111. -/
theorem syndWritesSyndromeAndParity : Obligations.SyndWritesSyndromeAndParity := by
  refine ⟨encode_synd, fun w => ⟨_, _, isSyndrome_syndrome w, isOverallParity_overallParity w, leavesSynPar_synd w⟩,
    fun _ => refusedWhileFaulted nofun, recordsIllc_word (by decide), ?_, ?_, ?_, ?_, ?_⟩
  all_goals rw [leavesSynPar_iff]; decide

/-- Settles O32: CORR leaves the corrected word, which for a valid codeword is the operand. -/
theorem corrFlipsAtSyndrome : Obligations.CorrFlipsAtSyndrome := by
  refine ⟨encode_corr, fun w => ⟨_, _, _, isSyndrome_syndrome w, isOverallParity_overallParity w, isCorrected_correctWord w,
      leavesCorrection_corr w⟩, fun w hw => ?_, fun _ => refusedWhileFaulted nofun, recordsIllc_word (by decide), ?_, ?_, ?_, ?_⟩
  · obtain ⟨hs, hp⟩ := (validCodeword_iff w).mp hw
    exact leavesCorrection_of_eq ⟨hs, hp, rfl, correctWord_of_validCodeword hw⟩
  all_goals exact leavesCorrection_of_eq (by decide)

/-- Settles O33: UNPK leaves what extraction finds, and extraction looks at the data slots alone. -/
theorem unpkExtractsDataBits : Obligations.UnpkExtractsDataBits := by
  refine ⟨encode_unpk, fun w => ⟨_, isExtracted_extractData w, ?_⟩, fun v w d c hvw hv => ?_,
    fun _ => refusedWhileFaulted nofun, recordsIllc_word (by decide), ?_, ?_, ?_, ?_⟩
  · rw [← charOfData_eq_extractLsb]
    exact leavesDatChr_unpk w
  · rw [leavesDatChr_iff, extractData_congr hvw] at hv
    rwa [leavesDatChr_iff]
  all_goals rw [leavesDatChr_iff]; decide

/-- Settles O34: DEC leaves the syndrome and parity of its operand, the corrected word and what extraction finds in it. -/
theorem decDecodesChunk : Obligations.DecDecodesChunk := by
  refine ⟨fun w _ => encode_dec w, fun w => ⟨_, _, _, _, isSyndrome_syndrome w, isOverallParity_overallParity w,
      isCorrected_correctWord w, isExtracted_extractData _, ?_⟩, fun w _ => recordsFault_dec w,
    fun _ _ => refusedWhileFaulted nofun, recordsIllc_chunk, ?_, ?_, ?_, ?_, ?_⟩
  · rw [← charOfData_eq_extractLsb]
    exact leavesDecoded_dec w
  all_goals exact leavesDecoded_of_eq (by decide)

/-! ## Codewords decoded -/

/-- The character of a code point is its low eight bits (R116). -/
theorem charOfData_ofNat (cp : Nat) : charOfData (BitVec.ofNat 11 cp) = BitVec.ofNat 8 (cp % 256) := by
  apply BitVec.eq_of_toNat_eq
  rw [charOfData, BitVec.setWidth_ofNat_of_le (by decide), BitVec.toNat_ofNat, BitVec.toNat_ofNat, Nat.mod_mod]

theorem toNat_char (cp : Nat) : (BitVec.ofNat 8 (cp % 256)).toNat = cp % 256 := by
  rw [BitVec.toNat_ofNat, Nat.mod_mod]

/-- R118 (a): DEC of a codeword flips nothing and finds the code point. -/
theorem leavesDecoded_encodeData (cp : Nat) :
    LeavesDecoded (encodeData (BitVec.ofNat 11 cp)) (encodeData (BitVec.ofNat 11 cp)) (BitVec.ofNat 11 cp)
      (BitVec.ofNat 8 (cp % 256)) 0 false false := by
  have hvalid : validCodeword (encodeData (BitVec.ofNat 11 cp)) = true := validCodeword_encodeData _
  obtain ⟨hs, hp⟩ := (validCodeword_iff _).mp hvalid
  exact leavesDecoded_of_eq
    ⟨correctWord_of_validCodeword hvalid, extractData_encodeData _, charOfData_ofNat cp, hs, hp, rfl⟩

/-- R118 (b), (c): DEC of a codeword with one error repairs it and reports its index. -/
theorem leavesDecoded_one_error (cp : Nat) {i : Nat} (hi : i < 16) :
    LeavesDecoded (encodeData (BitVec.ofNat 11 cp) ^^^ (1#16 <<< i)) (encodeData (BitVec.ofNat 11 cp)) (BitVec.ofNat 11 cp)
      (BitVec.ofNat 8 (cp % 256)) (BitVec.ofNat 4 i) true true := by
  have hvalid : validCodeword (encodeData (BitVec.ofNat 11 cp)) = true := validCodeword_encodeData _
  exact leavesDecoded_of_eq ⟨correctWord_one_error hvalid hi, extractData_encodeData _, charOfData_ofNat cp,
    syndrome_one_error hvalid hi, overallParity_one_error hvalid hi, by simp⟩

/-- Settles O42: the writes of DEC are those of CORR followed by those of UNPK on the corrected word, and DEC undoes ENC. -/
theorem decIsCorrThenUnpk : Obligations.DecIsCorrThenUnpk := by
  refine ⟨fun s w hs => ⟨_, _, by rw [exec_corr, if_pos hs], ?_, by rw [exec_dec, if_pos hs, if_neg (not_not.mpr rfl)]⟩,
    fun s w hs => ⟨_, _, _, leavesSynPar_synd w s hs, leavesCorrection_corr w s hs, leavesDecoded_dec w s hs,
      rfl, rfl, rfl, rfl⟩,
    fun s cp hs hcp => ⟨_, _, leavesRes_enc hcp s hs, leavesDecoded_encodeData cp _ hs, rfl, rfl, rfl⟩⟩
  rw [exec_unpk]
  exact congrArg _ (if_pos hs)

/-- Settles O44: one error in a codeword is repaired, so DEC finds the code point with and without it. -/
theorem singleErrorIsCorrected : Obligations.SingleErrorIsCorrected := by
  intro cp hcp
  refine ⟨_, leavesRes_enc hcp, leavesDecoded_encodeData cp, fun i hi => leavesDecoded_one_error cp hi, ?_⟩
  rw [toNat_char]
  omega

/-- Settles O45: two errors are miscorrected at the exclusive-or of their indices, and the one flip cannot undo three. -/
theorem twoErrorsAreMiscorrected : Obligations.TwoErrorsAreMiscorrected := by
  have hvalid (cp : Nat) : validCodeword (encodeData (BitVec.ofNat 11 cp)) = true := validCodeword_encodeData _
  have hdata (cp : Nat) : extractData (encodeData (BitVec.ofNat 11 cp)) = BitVec.ofNat 11 cp := extractData_encodeData _
  refine ⟨fun cp hcp => ⟨_, leavesRes_enc hcp, fun a b hab hb => ?_⟩,
    fun cp hcp => ⟨_, leavesRes_enc hcp, fun a b e hab hbe he => ?_⟩⟩
  · have ha : a < 16 := hab.trans hb
    have hs := syndrome_two_errors (hvalid cp) ha hb
    refine ⟨_, _, leavesDecoded_of_eq ⟨correctWord_two_errors (hvalid cp) hab hb, rfl, rfl, hs,
      overallParity_two_errors (hvalid cp) ha hb, ?_⟩, Nat.xor_ne_zero_iff.mpr hab.ne, ?_, ?_⟩
    · rw [← hs]
      exact decide_eq_true (.inl (syndrome_two_errors_ne_zero (hvalid cp) hab hb))
    · rw [← extractData_two_errors_iff (hvalid cp) hab hb, hdata]
    · have hchar := charOfData_two_errors_iff (encodeData (BitVec.ofNat 11 cp)) hab hb
      rwa [hdata, charOfData_ofNat] at hchar
  · have hb : b < 16 := hbe.trans he
    have hodd := overallParity_three_errors (hvalid cp) (hab.trans hb) hb he
    refine ⟨_, _, _, _, _, leavesDecoded_of_eq ⟨rfl, rfl, rfl, rfl, hodd, rfl⟩, ?_⟩
    have hne := extractData_three_errors_ne (hvalid cp) hab hbe he
    rwa [hdata] at hne

/-! ## The character -/

/-- R116: the character of a word is in the slots 7 and 9 to 15 alone. -/
theorem charOfData_extractData_congr {v w : Word}
    (h : ∀ i ∈ [7, 9, 10, 11, 12, 13, 14, 15], v.getLsbD i = w.getLsbD i) :
    charOfData (extractData v) = charOfData (extractData w) := by
  have hslots : ∀ b < 8, DPOS.getD (10 - b) 0 ∈ [7, 9, 10, 11, 12, 13, 14, 15] := by decide
  apply BitVec.eq_of_getLsbD_eq
  intro b hb
  rw [getLsbD_charOfData_extractData v b hb, getLsbD_charOfData_extractData w b hb, h _ (hslots b hb)]

/-- Settles O46: the character is that of the corrected word's low eight data slots, so a code point of 256 or more loses its
high bits. -/
theorem characterIsTruncated : Obligations.CharacterIsTruncated := by
  refine ⟨fun v w h d c d' c' hv hw => ?_,
    fun w => ⟨_, _, _, _, _, leavesDecoded_dec w, rfl, leavesDatChr_unpk (correctWord w)⟩,
    fun cp hlow hcp => ⟨_, _, leavesRes_enc hcp, leavesDecoded_encodeData cp, toNat_char cp, ?_⟩⟩
  · rw [← ((leavesDatChr_iff v d c).mp hv).2, ← ((leavesDatChr_iff w d' c').mp hw).2, charOfData_extractData_congr h]
  · rw [toNat_char]
    omega

end Sys2Proof.Machine
end

section
/-! PROOFS. The system command CLRF on the block (R140), and what a command of the host does to a block with a fault recorded
(R167). -/

namespace Sys2Proof.Machine

open Sys2Proof.Spec

/-! ## A state with other registers -/

@[simp] theorem withRegs_regs (s : State) (r : Regs) : (withRegs s r).regs = r := rfl
@[simp] theorem withRegs_self (s : State) : withRegs s s.regs = s := rfl
@[simp] theorem withRegs_withRegs (s : State) (r r' : Regs) : withRegs (withRegs s r) r' = withRegs s r' := rfl

/-- Other registers without a fault leave a block ready. -/
theorem ready_withRegs {s : State} (hs : s.Ready) {r : Regs} (hr : r.flt = .none) : (withRegs s r).Ready := ⟨hs.1, hr⟩

/-! ## The word of CLRF -/

/-- CLRF is the only command whose operation number is 7 (R61). -/
theorem opcode_eq_seven_iff (i : Instr) : i.opcode = 7 ↔ i = .clrf := by
  cases i <;> simp [Instr.opcode]

/-- No other command has the word of CLRF, however its operands are truncated. -/
theorem encode_ne_clrfWord {i : Instr} (hi : i ≠ .clrf) : encode i ≠ clrfWord := by
  intro h
  obtain ⟨hop, -⟩ := Sys2Proof.Laws.EncodedFields.fields i
  rw [h] at hop
  exact hi ((opcode_eq_seven_iff i).mp hop.symm)

/-- With operation number 7 every word but that of CLRF is illegal (R68, R140). -/
theorem decode_error_of_op_eq_seven {c : Cmd} (hop : Cmd.op c = 7) (hc : c ≠ clrfWord) : ∃ why, decode c = .error why := by
  cases hd : decode c with
  | error why => exact ⟨why, rfl⟩
  | ok i =>
    obtain ⟨hopcode, -⟩ := fields_of_decode hd
    obtain rfl := (opcode_eq_seven_iff i).mp (hopcode.symm.trans hop)
    exact absurd (eq_clrfWord_of_decode c hd) hc

/-! ## Commands to a block that has been reset -/

/-- CLRF, whether or not a fault is recorded. -/
theorem present_clrf {s : State} (hs : s.resetSeen = true) :
    present (encode .clrf) s = .next (withRegs s { s.regs with flt := .none }) :=
  present_encode .clrf s rfl hs

/-- While a fault is recorded every word but that of CLRF changes nothing (R167). -/
theorem present_of_fault {s : State} {c : Cmd} (hs : s.resetSeen = true) (hf : s.regs.flt ≠ .none) (hc : c ≠ clrfWord) :
    present c s = .next s := by
  unfold present
  rw [step_command s c hs, runCommand, if_pos ⟨hf, hc⟩]

/-- CLRF changes nothing when no fault is recorded. -/
theorem exec_clrf_of_none {s : State} (hs : s.regs.flt = .none) : exec .clrf s = .next s := by
  rw [exec_clrf, clearFault, ← hs]

/-- A command that leaves a word, presented to a block that accepts commands. -/
theorem present_of_leavesRes {i : Instr} {W : Word} {s : State} (hi : i.WellFormed) (h : LeavesRes i W) (hs : s.Ready) :
    present (encode i) s = .next (withRegs s { s.regs with res := W }) :=
  (present_encode i s hi hs.1).trans (h s hs.2)

/-- A command that records a fault, presented to a block that accepts commands. -/
theorem present_of_recordsFault {i : Instr} {c : FaultCause} {s : State} (hi : i.WellFormed) (h : RecordsFault i c)
    (hs : s.Ready) : present (encode i) s = .next (withRegs s { s.regs with flt := c }) :=
  (present_encode i s hi hs.1).trans (h s hs.2)

/-- The example of R140: CLRF after a failed ENC lets the next ENC take effect. -/
theorem enc_after_clrf {s : State} (hs : s.Ready) :
    ∃ t u, present (encode (.enc 2048)) s = .next t ∧ t.regs.flt = .cptl ∧ present (encode .clrf) t = .next u ∧
      u.outputs.fault = false ∧ present (encode (.enc 65)) u = .next (withRegs u { u.regs with res := 0x8214#16 }) := by
  have hA : LeavesRes (.enc 65) 0x8214 := (leavesRes_enc_iff (by decide) _).mpr (by decide)
  have hcleared : (withRegs s { s.regs with flt := .none }).Ready := ready_withRegs hs rfl
  exact ⟨_, _, present_of_recordsFault (by decide) (recordsFault_enc (by decide)) hs, rfl, present_clrf hs.1, rfl,
    present_of_leavesRes (by decide) hA hcleared⟩

/-- Settles O35: of the words with operation number 7 only CLRF's decodes, and refusal looks for that word alone. -/
theorem clrfClearsFault : Obligations.ClrfClearsFault := by
  refine ⟨by decide, exec_clrf, fun _ => exec_clrf_of_none, fun s c hs hop hc => ⟨fun hf => ?_, fun hf => ?_⟩,
    fun s i hs hf hchanged => ?_, fun _ => enc_after_clrf⟩
  · obtain ⟨why, hwhy⟩ := decode_error_of_op_eq_seven hop hc
    exact present_of_decode_error ⟨hs, hf⟩ hwhy
  · exact present_of_fault hs hf hc
  · by_contra hi
    exact hchanged (present_of_fault hs hf (encode_ne_clrfWord hi))

end Sys2Proof.Machine
end

section
/-! PROOFS. The host's batches on the block (R146 to R149): ENCS character by character, DECS chunk by chunk, the hosts that R147
allows, and what a batch leaves to the next command. -/

namespace Sys2Proof.Machine

open Sys2Proof.Spec

/-! ## One command of a batch -/

/-- A write of `RES` leaves a block ready. -/
theorem ready_writtenRes {s : State} (hs : s.Ready) (W : Word) : (withRegs s { s.regs with res := W }).Ready :=
  ready_withRegs hs hs.2

theorem issue_enc_of_lt {c : Nat} {s : State} (hc : c < 2048) (hs : s.Ready) :
    issue (.enc c) s = .next (withRegs s { s.regs with res := encodeData (BitVec.ofNat 11 c) }) :=
  present_of_leavesRes (decide_eq_true (hc.trans (by decide))) (leavesRes_enc hc) hs

theorem issue_enc_of_ge {c : Nat} {s : State} (hc : 2048 ≤ c) (hfits : codePointFits c) (hs : s.Ready) :
    issue (.enc c) s = .next (withRegs s { s.regs with flt := .cptl }) :=
  present_of_recordsFault (decide_eq_true hfits) (recordsFault_enc hc) hs

/-- The registers after DEC of a whole chunk; no register of before is in them (R124). -/
def decodedRegs (w : Word) : Regs :=
  { res := correctWord w, dat := extractData (correctWord w), chr := decodeWord w, syn := syndrome w,
    par := overallParity w, cor := correctionNeeded (syndrome w) (overallParity w), flt := .none }

theorem issue_decChunk (w : Word) {s : State} (hs : s.Ready) : issue (.decChunk w) s = .next (withRegs s (decodedRegs w)) := by
  have hdec := leavesDecoded_dec w s hs.2
  rw [← correctionNeeded_eq_decide] at hdec
  exact (present_encode (.dec w 16) s rfl hs.1).trans hdec

theorem issue_dec_partial (w : Word) {len : Nat} (hlen : len < 16) {s : State} (hs : s.Ready) :
    issue (.dec w len) s = .next (withRegs s { s.regs with flt := .malf }) :=
  present_of_recordsFault (decide_eq_true (hlen.trans (by decide))) (recordsFault_dec w hlen.ne) hs

/-! ## ENCS -/

section

variable {c : Nat} {cs : List Nat} {out : List Bool} {s : State}

/-- ENCS goes on after a character below the limit, its codeword appended. -/
theorem encsFrom_cons_of_lt (hc : c < 2048) (hs : s.Ready) :
    encsFrom (c :: cs) out s = encsFrom cs (out ++ streamOfWord (encodeData (BitVec.ofNat 11 c)))
      (withRegs s { s.regs with res := encodeData (BitVec.ofNat 11 c) }) := by
  have hfits : codePointFits c := hc.trans (by decide)
  simp [encsFrom, hfits, issue_enc_of_lt hc hs, hs.2, BatchError.ofCause]

/-- ENCS ends at a character that the block rejects (R161). -/
theorem encsFrom_cons_of_ge (hc : 2048 ≤ c) (hfits : codePointFits c) (hs : s.Ready) :
    encsFrom (c :: cs) out s =
      .next { block := withRegs s { s.regs with flt := .cptl }, result := .failed .codePointTooLarge } := by
  simp [encsFrom, hfits, issue_enc_of_ge hc hfits hs, BatchError.ofCause]

/-- ENCS ends at a character that cannot be presented (R146). -/
theorem encsFrom_cons_of_not_fits (hfits : ¬ codePointFits c) :
    encsFrom (c :: cs) out s = .next { block := s, result := .failed .codePointTooLarge } := by
  simp only [encsFrom, if_neg hfits]

end

/-- The codewords of a text one after the other, in stream order (R41). -/
def streamOfText (text : List Nat) : List Bool := text.flatMap fun c => streamOfWord (encodeData (BitVec.ofNat 11 c))

theorem encodedBits_of_forall_lt {text : List Nat} (h : ∀ c ∈ text, c < 2048) : encodedBits text = some (streamOfText text) := by
  induction text with
  | nil => rfl
  | cons c cs ih =>
    obtain ⟨hc, hcs⟩ := List.forall_mem_cons.mp h
    exact encodedBits_cons_eq_some.mpr ⟨_, _, encodeWord_of_lt hc, ih hcs, rfl⟩

theorem encodedBits_of_exists_ge {text : List Nat} (h : ∃ c ∈ text, 2048 ≤ c) : encodedBits text = none := by
  rw [Option.eq_none_iff_forall_ne_some]
  intro S hS
  obtain ⟨c, hmem, hc⟩ := h
  obtain ⟨k, hk, rfl⟩ := List.mem_iff_getElem.mp hmem
  have hword := encodeWord_eq_chunk hS k hk
  rw [encodeWord_of_ge hc] at hword
  cases hword

/-- ENCS of a text below the limit gives its whole stream and writes `RES` alone. -/
theorem encsFrom_of_forall_lt {text : List Nat} (h : ∀ c ∈ text, c < 2048) (out : List Bool) {s : State} (hs : s.Ready) :
    ∃ W, encsFrom text out s =
      .next { block := withRegs s { s.regs with res := W }, result := .complete (out ++ streamOfText text) } := by
  induction text generalizing out s with
  | nil => exact ⟨s.regs.res, by rw [streamOfText, List.flatMap_nil, List.append_nil]; rfl⟩
  | cons c cs ih =>
    obtain ⟨hc, hcs⟩ := List.forall_mem_cons.mp h
    obtain ⟨W, hW⟩ := ih hcs (out ++ streamOfWord (encodeData (BitVec.ofNat 11 c)))
      (ready_writtenRes hs (encodeData (BitVec.ofNat 11 c)))
    refine ⟨W, ?_⟩
    rw [encsFrom_cons_of_lt hc hs, hW]
    simp [streamOfText]

/-- ENCS of a text with a character over the limit fails there; the block records CPTL unless a character could not be
presented. -/
theorem encsFrom_of_exists_ge {text : List Nat} (h : ∃ c ∈ text, 2048 ≤ c) (out : List Bool) {s : State} (hs : s.Ready) :
    ∃ r, encsFrom text out s = .next { block := withRegs s r, result := .failed .codePointTooLarge } ∧
      ((∀ c ∈ text, codePointFits c) → r.flt = .cptl) := by
  induction text generalizing out s with
  | nil => simp at h
  | cons c cs ih =>
    by_cases hc : c < 2048
    · have hcs : ∃ d ∈ cs, 2048 ≤ d := by
        obtain ⟨d, hd, hge⟩ := h
        exact ⟨d, (List.mem_cons.mp hd).resolve_left (by omega), hge⟩
      obtain ⟨r, hr, hflt⟩ := ih hcs (out ++ streamOfWord (encodeData (BitVec.ofNat 11 c)))
        (ready_writtenRes hs (encodeData (BitVec.ofNat 11 c)))
      exact ⟨r, (encsFrom_cons_of_lt hc hs).trans hr, fun hfits => hflt (List.forall_mem_cons.mp hfits).2⟩
    · by_cases hfits : codePointFits c
      · exact ⟨_, encsFrom_cons_of_ge (Nat.not_lt.mp hc) hfits hs, fun _ => rfl⟩
      · exact ⟨s.regs, encsFrom_cons_of_not_fits hfits, fun hall => absurd (List.forall_mem_cons.mp hall).1 hfits⟩

theorem encodeText_of_forall_lt {text : List Nat} (h : ∀ c ∈ text, c < 2048) :
    encodeText text = .complete (streamOfText text) :=
  encodeText_eq_complete.mpr (encodedBits_of_forall_lt h)

theorem encodeText_of_exists_ge {text : List Nat} (h : ∃ c ∈ text, 2048 ≤ c) :
    encodeText text = .failed .codePointTooLarge := by
  rw [encodeText, encodedBits_of_exists_ge h]

/-- Settles O51: ENCS goes through a text below the limit to its end, and otherwise fails at the first character over it. -/
theorem encsComputesEncode : Obligations.EncsComputesEncode := by
  intro text s hs
  by_cases h : ∀ c ∈ text, c < 2048
  · obtain ⟨W, hW⟩ := encsFrom_of_forall_lt h [] hs
    have hnot : ¬ ∃ c ∈ text, 2048 ≤ c := fun ⟨c, hmem, hc⟩ => absurd (h c hmem) (Nat.not_lt.mpr hc)
    exact ⟨_, hW, (encodeText_of_forall_lt h).symm, rfl, hs.1, fun _ => ⟨rfl, hs.2⟩, fun hge => absurd hge hnot⟩
  · have hge : ∃ c ∈ text, 2048 ≤ c := by simpa using h
    obtain ⟨r, hr, hflt⟩ := encsFrom_of_exists_ge hge [] hs
    exact ⟨_, hr, (encodeText_of_exists_ge hge).symm, rfl, hs.1, fun hlt => absurd hlt h, fun _ => ⟨rfl, hflt⟩⟩

/-! ## DECS -/

/-- What DECS gathers over the listed chunks: a character of each, and the corrected ones with their syndromes (R147). -/
def decodedChunks (S : List Bool) (ks : List Nat) : Decoded :=
  { text := ks.map fun k => decodeWord (chunk S k)
    corrected := (ks.filter fun k => correctionNeeded (syndrome (chunk S k)) (overallParity (chunk S k))).map
      fun k => (k, syndrome (chunk S k)) }

/-- DECS goes on after a whole chunk, its character and its correction appended. -/
theorem decsFrom_cons (S : List Bool) (k : Nat) (ks : List Nat) (out : Decoded) {s : State} (hs : s.Ready) :
    decsFrom S (k :: ks) out s =
      decsFrom S ks (out.append k (decodedRegs (chunk S k))) (withRegs s (decodedRegs (chunk S k))) := by
  simp [decsFrom, issue_decChunk _ hs, decodedRegs, BatchError.ofCause]

/-- DECS comes to the tail with every chunk decoded and no fault recorded. -/
theorem decsFrom_eq_tail (S : List Bool) (ks : List Nat) (out : Decoded) {s : State} (hs : s.Ready) :
    ∃ r, r.flt = .none ∧ decsFrom S ks out s =
      decsTail S { text := out.text ++ (decodedChunks S ks).text, corrected := out.corrected ++ (decodedChunks S ks).corrected }
        (withRegs s r) := by
  induction ks generalizing out s with
  | nil => exact ⟨s.regs, hs.2, by simp [decsFrom, decodedChunks]⟩
  | cons k ks ih =>
    obtain ⟨r, hr, htail⟩ := ih (out.append k (decodedRegs (chunk S k))) (ready_withRegs hs (r := decodedRegs (chunk S k)) rfl)
    refine ⟨r, hr, ?_⟩
    rw [decsFrom_cons S k ks out hs, htail]
    cases hcor : correctionNeeded (syndrome (chunk S k)) (overallParity (chunk S k)) <;>
      simp [Decoded.append, decodedRegs, decodedChunks, hcor]

theorem decsTail_of_partial {S : List Bool} (h : S.length % 16 ≠ 0) (out : Decoded) {s : State} (hs : s.Ready) :
    decsTail S out s =
      .next { block := withRegs s { s.regs with flt := .malf }, result := .failed .malformedStream } := by
  simp [decsTail, h, issue_dec_partial _ (Nat.mod_lt _ (by decide)) hs, BatchError.ofCause]

/-- DECS of whole chunks. -/
theorem decs_of_whole {S : List Bool} (h : S.length % 16 = 0) {s : State} (hs : s.Ready) :
    ∃ r, r.flt = .none ∧
      decs S s = .next { block := withRegs s r, result := .complete (decodedChunks S (List.range (S.length / 16))) } := by
  obtain ⟨r, hr, htail⟩ := decsFrom_eq_tail S (List.range (S.length / 16)) { text := [], corrected := [] } hs
  exact ⟨r, hr, htail.trans (if_pos h)⟩

/-- DECS with a partial chunk at the end. -/
theorem decs_of_partial {S : List Bool} (h : S.length % 16 ≠ 0) {s : State} (hs : s.Ready) :
    ∃ r, r.flt = .malf ∧ decs S s = .next { block := withRegs s r, result := .failed .malformedStream } := by
  obtain ⟨r, hr, htail⟩ := decsFrom_eq_tail S (List.range (S.length / 16)) { text := [], corrected := [] } hs
  exact ⟨{ r with flt := .malf }, rfl, htail.trans (decsTail_of_partial h _ (ready_withRegs hs hr))⟩

/-- Settles O52. -/
theorem decsComputesDecode : Obligations.DecsComputesDecode := by
  intro S s hs
  by_cases h : S.length % 16 = 0
  · obtain ⟨r, hr, hdecs⟩ := decs_of_whole h hs
    exact ⟨_, hdecs, rfl, hs.1, fun _ => ⟨_, rfl, if_pos h, by simp [decodedChunks], hr⟩, fun hne => absurd h hne⟩
  · obtain ⟨r, hr, hdecs⟩ := decs_of_partial h hs
    exact ⟨_, hdecs, rfl, hs.1, fun h0 => absurd h0 h, fun _ => ⟨rfl, if_neg h, hr⟩⟩

/-- Settles O53: with whole chunks the three hosts are one, and with a partial chunk the length alone decides the result. -/
theorem decsHostsAgree : Obligations.DecsHostsAgree := by
  intro S s hs
  by_cases h : S.length % 16 = 0
  · obtain ⟨r, -, hdecs⟩ := decs_of_whole h hs
    exact ⟨_, _, _, hdecs, (if_pos h).trans hdecs, (if_pos h).trans hdecs, rfl, rfl, fun hne => absurd h hne⟩
  · obtain ⟨r, -, hdecs⟩ := decs_of_partial h hs
    exact ⟨_, _, _, hdecs, (if_neg h).trans (decsTail_of_partial h _ hs), if_neg h, rfl, rfl, fun _ => ⟨rfl, rfl⟩⟩

/-- Settles O54: with no character and no chunk the sequences end at once. -/
theorem emptyBatchesIssueNothing : Obligations.EmptyBatchesIssueNothing := fun _ => ⟨rfl, rfl⟩

/-! ## After a batch -/

/-- The host's return from a fault on a block that has been reset, and the refusal of every other command until then. -/
theorem acknowledgeFault_and_refusal {t : State} (ht : t.resetSeen = true) :
    acknowledgeFault t = .next (withRegs t { t.regs with flt := .none }) ∧ t.resetSeen = true ∧
      (t.regs.flt ≠ .none → ∀ i, i ≠ .clrf → issue i t = .next t) :=
  ⟨present_clrf ht, ht, fun hf _ hi => present_of_fault ht hf (encode_ne_clrfWord hi)⟩

/-- Settles O55: a batch never takes back the reset. -/
theorem failedBatchIsAcknowledged : Obligations.FailedBatchIsAcknowledged := by
  constructor
  · intro text s b hs hb
    obtain ⟨b', hb', -, -, hreset, -⟩ := encsComputesEncode text s hs
    cases hb'.symm.trans hb
    exact acknowledgeFault_and_refusal hreset
  · intro S s b hs hb
    obtain ⟨b', hb', -, hreset, -⟩ := decsComputesDecode S s hs
    cases hb'.symm.trans hb
    exact acknowledgeFault_and_refusal hreset

end Sys2Proof.Machine
end

section
/-! PROOFS. The round trip of a text through ENCS and DECS (R150), without errors in the stream and with at most one in each
chunk (R107). -/

namespace Sys2Proof.Machine

/-! ## A codeword with at most one error -/

/-- A word with at most one bit set is 0 or that bit. -/
theorem eq_zero_or_oneHot_of_weight_le_one {e : Word} (h : weight e ≤ 1) : e = 0 ∨ ∃ i < 16, e = 1#16 <<< i := by
  rcases Nat.le_one_iff_eq_zero_or_eq_one.mp h with h0 | h1
  · exact .inl (eq_zero_of_weight_eq_zero h0)
  · obtain ⟨i, hi⟩ := List.length_eq_one_iff.mp h1
    have hbit (j : Nat) : e.getLsbD j = true ↔ j = i := by rw [← mem_indexForm, hi, List.mem_singleton]
    have hslot : i < 16 := BitVec.lt_of_getLsbD ((hbit i).mpr rfl)
    refine .inr ⟨i, hslot, word_ext _ _ fun j _ => ?_⟩
    rw [Bool.eq_iff_iff, getLsbD_oneHot i j hslot, decide_eq_true_iff, hbit]

section

variable {C e : Word} (hC : validCodeword C = true)
include hC

/-- The syndrome of a codeword with errors is that of the errors (R110). -/
theorem syndrome_codeword_xor : syndrome (C ^^^ e) = syndrome e := by
  rw [syndrome_xor, ((validCodeword_iff C).mp hC).1]
  exact BitVec.zero_xor

/-- A codeword with at most one error is corrected when there is one (R112, R118). -/
theorem correctionNeeded_of_weight_le_one (he : weight e ≤ 1) :
    correctionNeeded (syndrome (C ^^^ e)) (overallParity (C ^^^ e)) = (e != 0) := by
  have hne : ∀ i < 16, (1#16 <<< i != 0) = true := by decide
  rcases eq_zero_or_oneHot_of_weight_le_one he with rfl | ⟨i, hi, rfl⟩
  · obtain ⟨hs, hp⟩ := (validCodeword_iff C).mp hC
    rw [show C ^^^ 0 = C from BitVec.xor_zero, hs, hp]
    rfl
  · rw [overallParity_one_error hC hi, correctionNeeded, Bool.or_true, hne i hi]

/-- A codeword with at most one error is repaired (R118). -/
theorem correctWord_of_weight_le_one (he : weight e ≤ 1) : correctWord (C ^^^ e) = C := by
  rcases eq_zero_or_oneHot_of_weight_le_one he with rfl | ⟨i, hi, rfl⟩
  · rw [show C ^^^ 0 = C from BitVec.xor_zero, correctWord_of_validCodeword hC]
  · exact correctWord_one_error hC hi

end

/-! ## The stream of a text -/

/-- Chunk `k` of the stream of a text, in the encoder's terms (R85). -/
theorem chunk_of_encodedBits {text : List Nat} {S : List Bool} (h : encodedBits text = some S) (k : Nat)
    (hk : k < text.length) : chunk S k = encodeData (BitVec.ofNat 11 text[k]) := by
  have hword := encodeWord_eq_chunk h k hk
  rcases Nat.lt_or_ge text[k] 2048 with hlt | hge
  · exact Option.some.inj (hword.symm.trans (encodeWord_of_lt hlt))
  · cases hword.symm.trans (encodeWord_of_ge hge)

/-- The chunks of a stream with an error mask are those of the stream with those of the mask (R107). -/
theorem chunk_xorStream {S E : List Bool} (h : E.length = S.length) (k : Nat) :
    chunk (xorStream S E) k = chunk S k ^^^ chunk E k := by
  apply word_ext
  intro i hi
  rw [BitVec.getLsbD_xor, getLsbD_chunk _ _ _ hi, getLsbD_chunk _ _ _ hi, getLsbD_chunk _ _ _ hi]
  rcases Nat.lt_or_ge (16 * k + i) S.length with hin | hout
  · simp [xorStream, hin, h]
  · simp [xorStream, hout, h]

/-- What DECS gathers from the stream of a text with an error `e k` of at most one bit in each chunk `k` (R150 (c)). -/
theorem decodedChunks_of_weight_le_one {text : List Nat} {S : List Bool} {e : Nat → Word}
    (hS : ∀ k (hk : k < text.length), chunk S k = encodeData (BitVec.ofNat 11 text[k]) ^^^ e k)
    (he : ∀ k < text.length, weight (e k) ≤ 1) :
    decodedChunks S (List.range text.length) =
      { text := text.map fun c => BitVec.ofNat 8 (c % 256)
        corrected := ((List.range text.length).filter fun k => e k != 0).map fun k => (k, syndrome (e k)) } := by
  have hvalid (c : Nat) : validCodeword (encodeData (BitVec.ofNat 11 c)) = true := validCodeword_encodeData _
  have hchars : (List.range text.length).map (fun k => decodeWord (chunk S k)) =
      text.map fun c => BitVec.ofNat 8 (c % 256) := by
    refine List.ext_getElem (by simp) fun k _ hk => ?_
    have hk' : k < text.length := by simpa using hk
    rw [List.getElem_map, List.getElem_map, List.getElem_range, hS k hk', decodeWord,
      correctWord_of_weight_le_one (hvalid _) (he k hk'), extractData_encodeData, charOfData_ofNat]
  have hcorrected : (List.range text.length).filter
      (fun k => correctionNeeded (syndrome (chunk S k)) (overallParity (chunk S k))) =
      (List.range text.length).filter fun k => e k != 0 := by
    refine List.filter_congr fun k hk => ?_
    have hk' : k < text.length := List.mem_range.mp hk
    rw [hS k hk', correctionNeeded_of_weight_le_one (hvalid _) (he k hk')]
  rw [decodedChunks, hchars, hcorrected, Decoded.mk.injEq]
  refine ⟨rfl, List.map_congr_left fun k hk => ?_⟩
  rw [hS k (List.mem_range.mp (List.mem_of_mem_filter hk)), syndrome_codeword_xor (hvalid _)]

/-- DECS of such a stream returns the text and the report of the errors. -/
theorem decs_of_weight_le_one {text : List Nat} {S : List Bool} {e : Nat → Word} (hlen : S.length = 16 * text.length)
    (hS : ∀ k (hk : k < text.length), chunk S k = encodeData (BitVec.ofNat 11 text[k]) ^^^ e k)
    (he : ∀ k < text.length, weight (e k) ≤ 1) {s : State} (hs : s.Ready) :
    ∃ b, decs S s = .next b ∧ b.result = .complete
      { text := text.map fun c => BitVec.ofNat 8 (c % 256)
        corrected := ((List.range text.length).filter fun k => e k != 0).map fun k => (k, syndrome (e k)) } := by
  obtain ⟨r, -, hdecs⟩ := decs_of_whole (by omega : S.length % 16 = 0) hs
  rw [show S.length / 16 = text.length by omega, decodedChunks_of_weight_le_one hS he] at hdecs
  exact ⟨_, hdecs, rfl⟩

/-! ## The round trip -/

/-- Settles O57. -/
theorem oneErrorPerChunkIsCorrected : Obligations.OneErrorPerChunkIsCorrected := by
  intro text S E s hs htext hlenE hE
  have hbits : encodedBits text = some S := encodeText_eq_complete.mp htext
  have hlenS : S.length = 16 * text.length := length_of_encodedBits hbits
  have hlen : (xorStream S E).length = 16 * text.length := by simp [xorStream, hlenE, hlenS]
  have hchunk (k : Nat) (hk : k < text.length) :
      chunk (xorStream S E) k = encodeData (BitVec.ofNat 11 text[k]) ^^^ chunk E k := by
    rw [chunk_xorStream hlenE, chunk_of_encodedBits hbits k hk]
  obtain ⟨b, hdecs, hresult⟩ := decs_of_weight_le_one hlen hchunk hE hs
  refine ⟨b, hdecs, hresult, fun k _ i hi hflip => ?_⟩
  rw [hflip, syndrome_oneHot hi]

/-- Settles O56: the stream that ENCS returns is one with no error in any chunk. -/
theorem roundTripOfAText : Obligations.RoundTripOfAText := by
  intro text s hs htext
  obtain ⟨W, hencs⟩ := encsFrom_of_forall_lt htext [] hs
  have hbits : encodedBits text = some (streamOfText text) := encodedBits_of_forall_lt htext
  have hlen : (streamOfText text).length = 16 * text.length := length_of_encodedBits hbits
  have hchunk (k : Nat) (hk : k < text.length) :
      chunk (streamOfText text) k = encodeData (BitVec.ofNat 11 text[k]) ^^^ 0 :=
    (chunk_of_encodedBits hbits k hk).trans BitVec.xor_zero.symm
  obtain ⟨b', hdecs, hresult⟩ := decs_of_weight_le_one hlen hchunk (fun _ _ => by decide) (ready_writtenRes hs W)
  refine ⟨_, _, b', hencs, rfl, hlen, hdecs, by simpa using hresult, fun hlow => ?_⟩
  rw [List.map_map]
  refine (List.map_congr_left fun c hc => ?_).trans (List.map_id text)
  rw [Function.comp_apply, toNat_char, Nat.mod_eq_of_lt (Nat.lt_succ_of_le (hlow c hc)), id]

end Sys2Proof.Machine
end

section
/-! PROOFS. Which fault a command word raises, as a function of the word alone (R160 to R164), and what the word then does to a
block that has been reset. -/

namespace Sys2Proof.Machine

open Sys2Proof.Spec

/-! ## The fault of a command -/

/-- The fault that a command raises when it is not refused, `none` when it completes (R160). -/
def instrFault : Instr → FaultCause
  | .enc cp | .pack cp => if 2048 ≤ cp then .cptl else .none
  | .dec _ len => if len ≠ 16 then .malf else .none
  | .pgen _ | .synd _ | .corr _ | .unpk _ | .clrf => .none

theorem instrFault_eq_cptl_iff (i : Instr) :
    instrFault i = .cptl ↔ ∃ cp, 2048 ≤ cp ∧ (i = .enc cp ∨ i = .pack cp) := by
  cases i <;> simp [instrFault, ite_eq_iff]

theorem instrFault_eq_malf_iff (i : Instr) : instrFault i = .malf ↔ ∃ w len, len ≠ 16 ∧ i = .dec w len := by
  cases i <;> simp [instrFault, ite_eq_iff]

/-- ILLC is the fault of words and not of commands (R164). -/
theorem instrFault_ne_illc (i : Instr) : instrFault i ≠ .illc := by
  cases i <;> simp [instrFault, ite_eq_iff]

/-- A command with a fault records it and does nothing else (R166). -/
theorem recordsFault_instrFault {i : Instr} (h : instrFault i ≠ .none) : RecordsFault i (instrFault i) := by
  cases hc : instrFault i with
  | none => exact absurd hc h
  | cptl =>
    obtain ⟨cp, hcp, rfl | rfl⟩ := (instrFault_eq_cptl_iff i).mp hc
    · exact recordsFault_enc hcp
    · exact recordsFault_pack hcp
  | malf =>
    obtain ⟨w, len, hlen, rfl⟩ := (instrFault_eq_malf_iff i).mp hc
    exact recordsFault_dec w hlen
  | illc => exact absurd hc (instrFault_ne_illc i)

/-- A command without a fault leaves a value in `FLT` only when it is CLRF, and then 0. -/
theorem instrWrites_flt_of_no_fault {i : Instr} (h : instrFault i = .none) :
    (instrWrites i).flt = if i = .clrf then some .none else none := by
  cases i with
  | enc cp =>
    have hcp : ¬ 2048 ≤ cp := by simpa [instrFault] using h
    simp [instrWrites, hcp]
  | pack cp =>
    have hcp : ¬ 2048 ≤ cp := by simpa [instrFault] using h
    simp [instrWrites, hcp]
  | dec w len =>
    have hlen : len = 16 := by simpa [instrFault] using h
    simp [instrWrites, hlen]
  | pgen w => rfl
  | synd w => rfl
  | corr w => rfl
  | unpk w => rfl
  | clrf => rfl

/-- A command that is not refused and has no fault completes with no fault recorded (R194). -/
theorem exec_of_no_fault {i : Instr} {s : State} (hrun : s.regs.flt = .none ∨ i = .clrf) (h : instrFault i = .none) :
    ∃ t, exec i s = .next t ∧ t.regs.flt = .none := by
  refine ⟨_, exec_eq_writes i s hrun, ?_⟩
  rw [RegWrites.apply_flt, instrWrites_flt_of_no_fault h]
  split
  · rfl
  · next hi => exact hrun.resolve_right hi

/-! ## The fault of a command word -/

/-- The fault that a command word raises when it is not refused: the outcome depends on the word alone (R169). -/
def commandFault (c : Cmd) : FaultCause :=
  match decode c with
  | .error _ => .illc
  | .ok i => instrFault i

theorem commandFault_of_error {c : Cmd} {why : IllegalWord} (h : decode c = .error why) : commandFault c = .illc := by
  simp [commandFault, h]

theorem commandFault_of_ok {c : Cmd} {i : Instr} (h : decode c = .ok i) : commandFault c = instrFault i := by
  simp [commandFault, h]

/-- CLRF never faults (R140). -/
theorem commandFault_clrfWord : commandFault clrfWord = .none := commandFault_of_ok decode_clrfWord

theorem commandFault_eq_cptl_iff (c : Cmd) :
    commandFault c = .cptl ↔ ∃ cp, 2048 ≤ cp ∧ (decode c = .ok (.enc cp) ∨ decode c = .ok (.pack cp)) := by
  cases hd : decode c with
  | error why => simp [commandFault_of_error hd]
  | ok i => simp [commandFault_of_ok hd, instrFault_eq_cptl_iff]

theorem commandFault_eq_malf_iff (c : Cmd) :
    commandFault c = .malf ↔ ∃ w len, len ≠ 16 ∧ decode c = .ok (.dec w len) := by
  cases hd : decode c with
  | error why => simp [commandFault_of_error hd]
  | ok i => simp [commandFault_of_ok hd, instrFault_eq_malf_iff]

theorem commandFault_eq_illc_iff (c : Cmd) : commandFault c = .illc ↔ ∀ r ∈ opcodeTable, r.selects c = false := by
  rw [← decode_error_iff]
  cases hd : decode c with
  | error why => simp [commandFault_of_error hd]
  | ok i => simp [commandFault_of_ok hd, instrFault_ne_illc]

/-! ## Presenting a word that is not refused -/

/-- A word that decodes, presented after a reset, runs as its command (R195). -/
theorem present_of_decode {s : State} {c : Cmd} {i : Instr} (hs : s.resetSeen = true) (hd : decode c = .ok i) :
    present c s = exec i s :=
  (step_command s c hs).trans (runCommand_of_decode s c i hd)

/-- A word with a fault records it and does nothing else (R166). -/
theorem present_of_commandFault {s : State} {c : Cmd} {f : FaultCause} (hs : s.resetSeen = true)
    (hrun : s.regs.flt = .none ∨ c = clrfWord) (hc : commandFault c = f) (hf : f ≠ .none) :
    present c s = .next (withRegs s { s.regs with flt := f }) := by
  subst hc
  have hnone : s.regs.flt = .none := hrun.resolve_right fun hc => hf (hc ▸ commandFault_clrfWord)
  cases hd : decode c with
  | error why =>
    rw [commandFault_of_error hd]
    exact present_of_decode_error ⟨hs, hnone⟩ hd
  | ok i =>
    rw [commandFault_of_ok hd] at hf ⊢
    exact (present_of_decode hs hd).trans (recordsFault_instrFault hf s hnone)

/-- A word without a fault runs its command, which completes with no fault recorded (R194). -/
theorem present_of_no_commandFault {s : State} {c : Cmd} (hs : s.resetSeen = true)
    (hrun : s.regs.flt = .none ∨ c = clrfWord) (h : commandFault c = .none) :
    ∃ i t, decode c = .ok i ∧ present c s = .next t ∧ exec i s = .next t ∧ t.regs.flt = .none := by
  cases hd : decode c with
  | error why => simp [commandFault_of_error hd] at h
  | ok i =>
    have hrun' : s.regs.flt = .none ∨ i = .clrf := hrun.imp_right fun hc =>
      (Except.ok.inj (decode_clrfWord.symm.trans (hc ▸ hd))).symm
    obtain ⟨t, ht, hflt⟩ := exec_of_no_fault hrun' (commandFault_of_ok hd ▸ h)
    exact ⟨i, t, rfl, (present_of_decode hs hd).trans ht, ht, hflt⟩

/-- A block that accepts commands has in `FLT` afterwards the fault of the word (R160). -/
theorem present_flt {s : State} (hs : s.Ready) (c : Cmd) :
    ∃ t, present c s = .next t ∧ t.regs.flt = commandFault c := by
  obtain ⟨hreset, hf⟩ := hs
  by_cases h : commandFault c = .none
  · obtain ⟨-, t, -, ht, -, hflt⟩ := present_of_no_commandFault hreset (.inl hf) h
    exact ⟨t, ht, hflt.trans h.symm⟩
  · exact ⟨_, present_of_commandFault hreset (.inl hf) rfl h, rfl⟩

/-- A fault after a word that met none is the word's own, and `FLT` is all that differs (R166). -/
theorem present_faulted {s t : State} {c : Cmd} (hs : s.Ready) (ht : present c s = .next t) (hf : t.regs.flt ≠ .none) :
    t = withRegs s { s.regs with flt := commandFault c } := by
  obtain ⟨t', ht', hflt⟩ := present_flt hs c
  cases ht'.symm.trans ht
  cases (present_of_commandFault hs.1 (.inl hs.2) rfl (hflt ▸ hf)).symm.trans ht
  rfl

end Sys2Proof.Machine
end

section
/-! PROOFS. Faults of the block: which words raise them, entry, refusal, return, the order of the checks at one edge, and that
nothing is fatal (R160 to R172, R195). -/

namespace Sys2Proof.Machine

open Sys2Proof.Spec

/-! ## Entry, refusal and return -/

/-- Settles O16: `FLT` holds the fault of the word, a function of what it decodes to. -/
theorem faultsHaveExactlyTheirCauses : Obligations.FaultsHaveExactlyTheirCauses := by
  intro s c hs
  obtain ⟨t, ht, hflt⟩ := present_flt hs c
  rw [← commandFault_eq_cptl_iff, ← commandFault_eq_malf_iff, ← commandFault_eq_illc_iff, ← hflt]
  exact ⟨t, ht, Iff.rfl, Iff.rfl, Iff.rfl⟩

/-- Settles O18: refusal looks for the word of CLRF alone. -/
theorem refusalWhileFaulted : Obligations.RefusalWhileFaulted := by
  intro s c hs hf
  refine ⟨present_of_fault hs hf, ?_⟩
  rintro rfl
  exact present_clrf hs

theorem code_ne_zero_of_ne_none {f : FaultCause} (h : f ≠ .none) : f.code ≠ 0 := by
  intro hzero
  rw [← FaultCause.ofCode_code f, hzero] at h
  exact h rfl

/-- The port `fault` shows a recorded cause (R30). -/
theorem outputs_fault_of_flt_ne_none {t : State} (h : t.regs.flt ≠ .none) : t.outputs.fault = true :=
  (fault_iff_code_ne_zero t.regs).mpr (code_ne_zero_of_ne_none h)

/-- Settles O17: the whole next state is that of before with the word's fault in `FLT`. -/
theorem faultEntryWritesOnlyFlt : Obligations.FaultEntryWritesOnlyFlt := by
  intro s t c hs ht hf
  have hentry := present_faulted hs ht hf
  have hreset : t.resetSeen = true := by rw [hentry]; exact hs.1
  refine ⟨?_, outputs_fault_of_flt_ne_none hf, fun c' => present_of_fault hreset hf⟩
  rw [hentry]
  rfl

/-- A reset edge clears the registers of a block that was reset before and does nothing else (R33). -/
theorem step_reset_eq_withRegs {s : State} (hs : s.resetSeen = true) (v : Bool) (c : Cmd) :
    step (presentEdge { rst := true, cmdValid := v, cmd := c } s) = .next (withRegs s Regs.reset) := by
  rw [step_presentEdge_reset, resetEdge, ← hs]
  rfl

/-- A run goes on from where its first edge leads. -/
theorem runEdges_cons {e : Edge} {s t : State} (h : step (presentEdge e s) = .next t) (es : List Edge) :
    runEdges (e :: es) s = runEdges es t := by
  rw [runEdges, ← step_presentEdge, h]

/-- Settles O19: a fault changed `FLT` from 0 and nothing else, so writing 0 there gives the state before it back. -/
theorem clearedFaultRecursOnReissue : Obligations.ClearedFaultRecursOnReissue := by
  intro s t c hs ht hf
  have hentry := present_faulted hs ht hf
  have hreset : t.resetSeen = true := by rw [hentry]; exact hs.1
  have hback : withRegs t { t.regs with flt := .none } = s := by rw [hentry, ← hs.2]; rfl
  have hclear : present 0xE0000000#32 t = .next s := hback ▸ present_clrf hreset
  refine ⟨hclear, ?_, step_reset_eq_withRegs hreset false 0, hreset, rfl⟩
  rw [runEdges_cons ht, runEdges_cons hclear, runEdges_cons ht, runEdges]

/-! ## Nothing is fatal -/

/-- Every edge leads a block that has been reset to a next state, and the block stays reset (R172). -/
theorem step_presentEdge_next {s : State} (hs : s.resetSeen = true) (e : Edge) :
    ∃ t, step (presentEdge e s) = .next t ∧ t.resetSeen = true := by
  rw [step_presentEdge]
  rcases sampleEdge_cases s e with ⟨-, h⟩ | ⟨-, -, h⟩ | ⟨-, -, hnever, -⟩ | ⟨-, -, -, h⟩
  · exact ⟨_, h, rfl⟩
  · exact ⟨s, h, hs⟩
  · simp [hs] at hnever
  · obtain ⟨r, hr⟩ := runCommand_next s e.cmd
    exact ⟨_, h.trans hr, hs⟩

/-- Every run of a block that has been reset goes on to a next state, and the block stays reset (R172). -/
theorem runEdges_next (es : List Edge) {s : State} (hs : s.resetSeen = true) :
    ∃ t, runEdges es s = .next t ∧ t.resetSeen = true := by
  induction es generalizing s with
  | nil => exact ⟨s, rfl, hs⟩
  | cons e es ih =>
    obtain ⟨t, ht, hreset⟩ := step_presentEdge_next hs e
    rw [runEdges_cons ht]
    exact ih hreset

/-- Settles O8: by induction on the edges. -/
theorem nothingIsFatal : Obligations.NothingIsFatal := by
  intro es s hs
  obtain ⟨t, ht, hreset⟩ := runEdges_next es hs
  exact ⟨t, ht, hreset, present_clrf hreset⟩

/-! ## The order of the checks -/

/-- The length field and the length it stands for (R62 (c)). -/
theorem chunkLength_eq_sixteen_iff (c : Cmd) : Cmd.chunkLength c = 16 ↔ Cmd.len c = 16 :=
  BitVec.toNat_inj (y := 16#5)

/-- The fault of the command that a row reads, by the row's name and the word's operands (R160). -/
theorem instrFault_read {r : OpcodeRow} (hr : r ∈ opcodeTable) (c : Cmd) :
    instrFault (r.read c) =
      if (r.mnemonic = "ENC" ∨ r.mnemonic = "PACK") ∧ 2048 ≤ Cmd.codePoint c then .cptl
      else if r.mnemonic = "DEC" ∧ Cmd.chunkLength c ≠ 16 then .malf else .none := by
  fin_cases hr <;> simp [instrFault]

/-- The fault of a word that a row selects (R66, R160). -/
theorem commandFault_of_selects {c : Cmd} {r : OpcodeRow} (hr : r ∈ opcodeTable) (h : r.selects c = true) :
    commandFault c = instrFault (r.read c) :=
  commandFault_of_ok (decode_of_selects hr h)

/-- Settles O6: the checks of a word that is not refused are those of `commandFault`. -/
theorem stepFollowsOrderOfChecks : Obligations.StepFollowsOrderOfChecks := by
  rintro s ⟨rst, cmdValid, c⟩ hs
  refine ⟨?_, ?_, ?_, ?_⟩
  · rintro rfl
    exact step_reset_eq_withRegs hs cmdValid c
  · rintro rfl rfl
    exact step_presentEdge_idle s c
  · rintro rfl rfl hf hc
    exact present_of_fault hs hf hc
  · rintro rfl rfl hrun
    have hlen_iff := chunkLength_eq_sixteen_iff c
    refine ⟨fun hnone => ?_, fun r hr hsel hname hcp => ?_, fun r hr hsel hname hlen => ?_, fun r hr hsel hcp hlen => ?_⟩
    · exact present_of_commandFault hs hrun ((commandFault_eq_illc_iff c).mpr hnone) (by decide)
    · have hfault : instrFault (r.read c) = .cptl := (instrFault_read hr c).trans (if_pos ⟨hname, hcp⟩)
      exact present_of_commandFault hs hrun ((commandFault_of_selects hr hsel).trans hfault) (by decide)
    · have hfault : instrFault (r.read c) = .malf := by
        rw [instrFault_read hr, if_neg (by simp [hname]), if_pos ⟨hname, mt hlen_iff.mp hlen⟩]
      exact present_of_commandFault hs hrun ((commandFault_of_selects hr hsel).trans hfault) (by decide)
    · have hfault : instrFault (r.read c) = .none := by
        rw [instrFault_read hr, if_neg fun h => (hcp h.1).not_ge h.2, if_neg fun h => h.2 (hlen_iff.mpr (hlen h.1))]
      have hnone : commandFault c = .none := (commandFault_of_selects hr hsel).trans hfault
      obtain ⟨i, t, hi, ht, hexec, hflt⟩ := present_of_no_commandFault hs hrun hnone
      cases (decode_of_selects hr hsel).symm.trans hi
      exact ⟨t, ht, hexec, hflt⟩

end Sys2Proof.Machine
end

section
/-! PROOFS. The edge and the ports as the host sees them: a listed edge is a presented one, idle edges may be skipped, and
`fault` = 0 says that the last command completed (R67, R194, R195). -/

namespace Sys2Proof.Machine

open Sys2Proof.Spec

/-! ## The step of a listed command -/

/-- The first edge of the list is one that the environment presents before the rest (log 1). -/
theorem eq_presentEdge_of_inbox_cons {s : State} {e : Edge} {rest : List Edge} (h : s.inbox = e :: rest) :
    s = presentEdge e { s with inbox := rest } := by
  obtain ⟨regs, inbox, resetSeen⟩ := s
  cases h
  rfl

/-- Settles O5: the step is that of the word presented to the state without the edge. -/
theorem stepRunsDecodedCommand : Obligations.StepRunsDecodedCommand := by
  intro s c rest i hs hinbox hd
  calc step s = present c { s with inbox := rest } := congrArg step (eq_presentEdge_of_inbox_cons hinbox)
    _ = exec i { s with inbox := rest } := present_of_decode hs hd

/-! ## Idle edges -/

/-- An edge with neither a reset nor a command changes nothing, before the first reset too (R30). -/
theorem step_presentEdge_of_idle {e : Edge} (h : (e.rst || e.cmdValid) = false) (s : State) :
    step (presentEdge e s) = .next s := by
  obtain ⟨rst, cmdValid, c⟩ := e
  obtain ⟨rfl, rfl⟩ := Bool.or_eq_false_iff.mp h
  exact step_presentEdge_idle s c

/-- Two lists that run alike from every state run alike after one more edge, also where that edge stops the run. -/
theorem runEdges_cons_congr {es es' : List Edge} (h : ∀ s, runEdges es s = runEdges es' s) (e : Edge) (s : State) :
    runEdges (e :: es) s = runEdges (e :: es') s := by
  simp only [runEdges, h]

/-- Settles O7: by induction on the edges, from every state. -/
theorem idleEdgesMayBeSkipped : Obligations.IdleEdgesMayBeSkipped := by
  intro es
  induction es with
  | nil => exact fun _ => rfl
  | cons e es ih =>
    intro s
    cases hkept : e.rst || e.cmdValid with
    | true =>
      rw [List.filter_cons, if_pos hkept]
      exact runEdges_cons_congr ih e s
    | false =>
      rw [List.filter_cons, if_neg (ne_true_of_eq_false hkept), runEdges_cons (step_presentEdge_of_idle hkept s)]
      exact ih s

/-! ## The port `fault` after a command -/

theorem resultsFresh_iff (s : State) : s.ResultsFresh ↔ s.regs.flt = .none := bne_eq_false_iff_eq

/-- The word of CLRF is no other command's (R140). -/
theorem eq_clrf_of_decode {c : Cmd} {i : Instr} (hc : c = clrfWord) (hd : decode c = .ok i) : i = .clrf := by
  subst hc
  exact Except.ok.inj (hd.symm.trans decode_clrfWord)

section
variable {s t : State} {c : Cmd} (hs : s.resetSeen = true) (ht : present c s = .next t) (hf : t.regs.flt = .none)
include hs ht hf

/-- A word that leaves no fault was not refused: a refusal keeps the fault (R167). -/
theorem not_refused_of_present_no_fault : s.regs.flt = .none ∨ c = clrfWord := by
  by_contra hrefused
  obtain ⟨hfault, hc⟩ := not_or.mp hrefused
  cases (present_of_fault hs hfault hc).symm.trans ht
  exact hfault hf

/-- A word that leaves no fault raises none: a fault is recorded in `FLT` (R166). -/
theorem commandFault_of_present_no_fault : commandFault c = .none := by
  by_contra hfault
  have hrun := not_refused_of_present_no_fault hs ht hf
  cases (present_of_commandFault hs hrun rfl hfault).symm.trans ht
  exact hfault hf

end

/-- Settles O20: the word was not refused and raises no fault, so its command ran, and completes wherever it runs. -/
theorem noFaultMeansFreshResults : Obligations.NoFaultMeansFreshResults := by
  intro s t c hs ht hfresh
  have hf := (resultsFresh_iff t).mp hfresh
  have hrun := not_refused_of_present_no_fault hs ht hf
  have hnone := commandFault_of_present_no_fault hs ht hf
  obtain ⟨i, t', hd, ht', hexec, -⟩ := present_of_no_commandFault hs hrun hnone
  cases ht'.symm.trans ht
  refine ⟨i, hd, hexec, hrun.imp_right fun hc => eq_clrf_of_decode hc hd, fun u _ hu => ?_⟩
  obtain ⟨v, hv, hflt⟩ := exec_of_no_fault (.inl hu) ((commandFault_of_ok hd).symm.trans hnone)
  exact ⟨v, hv, (resultsFresh_iff v).mpr hflt⟩

end Sys2Proof.Machine
end
